-- ==== Sys2Proof/Word.lean ====
section
/-! DEFINITION. The data types of CPAES: bytes, bus words, bus addresses, four-byte columns, Blocks and the round-key
file (spec/00_scope.md R5, R6, R8, R10, R11; spec/10_state.md R23). -/

namespace Sys2Proof

/-- A byte is 8 bits, bit 0 the least significant (R10). -/
abbrev Byte := BitVec 8

/-- A bus word is 32 bits; every host access moves one (R8, R61). -/
abbrev Word := BitVec 32

/-- A host byte address is 17 bits wide (R8, R60). -/
abbrev BusAddr := BitVec 17

/-- Four bytes in order: one column of the state matrix, top to bottom (R130), and equally the "word" `[w0, w1, w2, w3]`
of the key schedule (spec/42_key_schedule.md section 1). -/
structure Col where
  b0 : Byte
  b1 : Byte
  b2 : Byte
  b3 : Byte
  deriving DecidableEq, Repr

/-- A Block: exactly 16 bytes `b[0..15]` (R11), held as its four columns, column `c` being `b[4c .. 4c+4)` (R130). -/
structure Block where
  c0 : Col
  c1 : Col
  c2 : Col
  c3 : Col
  deriving DecidableEq, Repr

/-- The round-key file: exactly 11 Blocks, by its type (R23, R184). -/
abbrev RoundKeys := Vector Block 11

/-- Four zero bytes. -/
def Col.zero : Col := ⟨0, 0, 0, 0⟩

/-- Sixteen zero bytes: the reset value of `KEY` and `BLK`, and the CBC chain's initial value (R22, R25, R232). -/
def Block.zero : Block := ⟨Col.zero, Col.zero, Col.zero, Col.zero⟩

end Sys2Proof
end

