-- ==== Sys2Proof/Syntax.lean ====
section
/-! DEFINITION. The commands of CPAES, one constructor per row of spec/opcode_table.json (spec/30_encoding.md R94). -/

namespace Sys2Proof

/-- A decoded command. Format N commands have no operand (R91), format R commands a 4-bit round index `w[11:8]` (R92),
format G two bytes `w[15:8]` and `w[23:16]` (R93). Which round indices are legal is `Instr.wf`'s business. -/
inductive Instr where
  /-- 0x00, R263. -/
  | nop
  /-- 0x01, R185. -/
  | keyexp
  /-- 0x02, R206. -/
  | encb
  /-- 0x03, R207. -/
  | decb
  /-- 0x10, R152. -/
  | ark (r : BitVec 4)
  /-- 0x11, R146. -/
  | subb
  /-- 0x12, R147. -/
  | isubb
  /-- 0x13, R148. -/
  | shrow
  /-- 0x14, R149. -/
  | ishrow
  /-- 0x15, R150. -/
  | mixcol
  /-- 0x16, R151. -/
  | imixcol
  /-- 0x17, R204. -/
  | round (r : BitVec 4)
  /-- 0x18, R205. -/
  | iround (r : BitVec 4)
  /-- 0x20, R114. -/
  | pad
  /-- 0x21, R115. -/
  | unpad
  /-- 0x30, R234. -/
  | ecbe
  /-- 0x31, R235. -/
  | ecbd
  /-- 0x32, R236. -/
  | cbce
  /-- 0x33, R237. -/
  | cbcd
  /-- 0x40, R153. -/
  | gfmul (a b : Byte)
  deriving DecidableEq, Repr

end Sys2Proof
end

