-- ==== Sys2Proof/WellFormed.lean ====
section
/-! DEFINITION. Which terms of Instr are commands of the hardware: the only check is the round index (R92, R96). -/

namespace Sys2Proof

/-- A round index names a round key when it is at most 10, "the last round" (R92). -/
def roundIndexOk (r : BitVec 4) : Bool := decide (r.toNat ≤ 10)

/-- The commands a word can decode to: a format R command needs a round index in 0..10 (R92, R95); the operands of the
other formats take every value of their field (R91, R93). -/
def Instr.wf : Instr → Bool
  | .ark r | .round r | .iround r => roundIndexOk r
  | .nop | .keyexp | .encb | .decb | .subb | .isubb | .shrow | .ishrow | .mixcol | .imixcol
  | .pad | .unpad | .ecbe | .ecbd | .cbce | .cbcd | .gfmul _ _ => true

end Sys2Proof
end

