-- ==== Sys2Proof/Decode.lean ====
section
/-! DEFINITION. The decoder of 32-bit command words, total and rejecting by name, the encoder, and the mask/match table
they both follow (spec/30_encoding.md R90 to R100; spec/opcode_table.json). -/

namespace Sys2Proof

/-- Why a word is illegal: the three kinds of R96. -/
inductive Illegal where
  /-- The opcode is not in the table of R94. -/
  | unassignedOpcode
  /-- A bit of a field marked "must be 0" is set. -/
  | reservedBits
  /-- A format R word with `r` in 11 to 15. -/
  | roundIndex
  deriving DecidableEq, Repr

/-! ## The fields of a command word (R90 to R93) -/

/-- The opcode `w[7:0]` (R90). -/
def opcodeField (w : Word) : BitVec 8 := w.extractLsb' 0 8

/-- The round index `w[11:8]` of format R (R92). -/
def roundField (w : Word) : BitVec 4 := w.extractLsb' 8 4

/-- The operand `a = w[15:8]` of format G (R93). -/
def aField (w : Word) : Byte := w.extractLsb' 8 8

/-- The operand `b = w[23:16]` of format G (R93). -/
def bField (w : Word) : Byte := w.extractLsb' 16 8

/-- Format N: `w[31:8]` must be 0 (R91). -/
def decodeN (w : Word) (i : Instr) : Except Illegal Instr :=
  if w.extractLsb' 8 24 = 0#24 then .ok i else .error .reservedBits

/-- Format R: `w[31:12]` must be 0, then `r <= 10` (R92). -/
def decodeR (w : Word) (f : BitVec 4 → Instr) : Except Illegal Instr :=
  if w.extractLsb' 12 20 = 0#20 then
    if roundIndexOk (roundField w) then .ok (f (roundField w)) else .error .roundIndex
  else .error .reservedBits

/-- Format G: `w[31:24]` must be 0 (R93). -/
def decodeG (w : Word) (f : Byte → Byte → Instr) : Except Illegal Instr :=
  if w.extractLsb' 24 8 = 0#8 then .ok (f (aField w) (bField w)) else .error .reservedBits

/-- The decoder of R95: a total function from 32-bit words to a command or a named kind of Illegal. -/
def decode (w : Word) : Except Illegal Instr :=
  match (opcodeField w).toNat with
  | 0x00 => decodeN w .nop
  | 0x01 => decodeN w .keyexp
  | 0x02 => decodeN w .encb
  | 0x03 => decodeN w .decb
  | 0x10 => decodeR w .ark
  | 0x11 => decodeN w .subb
  | 0x12 => decodeN w .isubb
  | 0x13 => decodeN w .shrow
  | 0x14 => decodeN w .ishrow
  | 0x15 => decodeN w .mixcol
  | 0x16 => decodeN w .imixcol
  | 0x17 => decodeR w .round
  | 0x18 => decodeR w .iround
  | 0x20 => decodeN w .pad
  | 0x21 => decodeN w .unpad
  | 0x30 => decodeN w .ecbe
  | 0x31 => decodeN w .ecbd
  | 0x32 => decodeN w .cbce
  | 0x33 => decodeN w .cbcd
  | 0x40 => decodeG w .gfmul
  | _ => .error .unassignedOpcode

/-! ## The encoder (R100) -/

/-- A format R word: `opcode | (r << 8)` (R100). -/
def encodeR (op : Word) (r : BitVec 4) : Word := op ||| (r.setWidth 32 <<< 8)

/-- A format G word: `opcode | (a << 8) | (b << 16)` (R100). -/
def encodeG (op : Word) (a b : Byte) : Word := op ||| (a.setWidth 32 <<< 8) ||| (b.setWidth 32 <<< 16)

/-- The word of a command, as R100 lists them. -/
def encode : Instr → Word
  | .nop => 0x00000000
  | .keyexp => 0x00000001
  | .encb => 0x00000002
  | .decb => 0x00000003
  | .ark r => encodeR 0x00000010 r
  | .subb => 0x00000011
  | .isubb => 0x00000012
  | .shrow => 0x00000013
  | .ishrow => 0x00000014
  | .mixcol => 0x00000015
  | .imixcol => 0x00000016
  | .round r => encodeR 0x00000017 r
  | .iround r => encodeR 0x00000018 r
  | .pad => 0x00000020
  | .unpad => 0x00000021
  | .ecbe => 0x00000030
  | .ecbd => 0x00000031
  | .cbce => 0x00000032
  | .cbcd => 0x00000033
  | .gfmul a b => encodeG 0x00000040 a b

/-- The assembler's `CMD <mnemonic>`: it "rejects `r > 10`" (R100); bytes above `0xFF` cannot be written. -/
def assemble (i : Instr) : Option Word := if i.wf then some (encode i) else none

/-! ## The opcode table, row by row (spec/opcode_table.json) -/

/-- One row of spec/opcode_table.json: a word belongs to it when `w & mask == match` and its field constraint holds. The
command is read from the word's fields. -/
structure OpcodeRow where
  mnemonic : String
  mask : Word
  pattern : Word
  roundIndexed : Bool
  deriving DecidableEq, Repr

/-- A row of format N: every bit fixed. -/
def rowN (m : String) (pattern : Word) : OpcodeRow := ⟨m, 0xFFFFFFFF, pattern, false⟩

/-- A row of format R: bits 11:8 free, with the constraint `r <= 10`. -/
def rowR (m : String) (pattern : Word) : OpcodeRow := ⟨m, 0xFFFFF0FF, pattern, true⟩

/-- The 20 rows of spec/opcode_table.json, in its order. -/
def opcodeTable : List OpcodeRow :=
  [rowN "NOP" 0x00, rowN "KEYEXP" 0x01, rowN "ENCB" 0x02, rowN "DECB" 0x03] ++
  [rowR "ARK" 0x10, rowN "SUBB" 0x11, rowN "ISUBB" 0x12, rowN "SHROW" 0x13, rowN "ISHROW" 0x14] ++
  [rowN "MIXCOL" 0x15, rowN "IMIXCOL" 0x16, rowR "ROUND" 0x17, rowR "IROUND" 0x18] ++
  [rowN "PAD" 0x20, rowN "UNPAD" 0x21] ++
  [rowN "ECBE" 0x30, rowN "ECBD" 0x31, rowN "CBCE" 0x32, rowN "CBCD" 0x33] ++
  [⟨"GFMUL", 0xFF0000FF, 0x40, false⟩]

/-- A word meets a row: "`w & mask == match` with its field constraints holding" (R95). -/
def OpcodeRow.takes (row : OpcodeRow) (w : Word) : Bool :=
  (w &&& row.mask == row.pattern) && (!row.roundIndexed || roundIndexOk (roundField w))

/-- The mnemonic of the table row that a command is. -/
def Instr.mnemonic : Instr → String
  | .nop => "NOP"
  | .keyexp => "KEYEXP"
  | .encb => "ENCB"
  | .decb => "DECB"
  | .ark _ => "ARK"
  | .subb => "SUBB"
  | .isubb => "ISUBB"
  | .shrow => "SHROW"
  | .ishrow => "ISHROW"
  | .mixcol => "MIXCOL"
  | .imixcol => "IMIXCOL"
  | .round _ => "ROUND"
  | .iround _ => "IROUND"
  | .pad => "PAD"
  | .unpad => "UNPAD"
  | .ecbe => "ECBE"
  | .ecbd => "ECBD"
  | .cbce => "CBCE"
  | .cbcd => "CBCD"
  | .gfmul _ _ => "GFMUL"

/-- The command that a word numbered as spec/opcode_table.json numbers it decodes to. The core reads one 32-bit word
(R90), bit 0 its least significant; bits the table's row does not have are 0. -/
def decodeTableWord (nbits w : Nat) : Option Instr :=
  match decode (BitVec.ofNat 32 (w % 2 ^ nbits)) with
  | .ok i => some i
  | .error _ => none

end Sys2Proof
end

