-- ==== Sys2Proof/Config.lean ====
section
/-! DEFINITION. The parameter and the constants of the hardware, and its free values (spec/00_scope.md R5 to R9;
spec/93_implementation_defined.md U1, U2, U3, U10). -/

namespace Sys2Proof

/-- `BLOCK_BYTES`, fixed (R5). -/
def blockBytes : Nat := 16

/-- `NUM_ROUND_KEYS`, fixed: rounds 0 to 10 (R6). -/
def numRoundKeys : Nat := 11

/-- The one parameter of a model of this hardware: `MBUF_SIZE`, the size of the message buffer in bytes (R7, U10).
It is fixed for a machine; State carries it so that every claim quantifies over it (assumption log 1). -/
structure Params where
  mbufSize : Nat
  deriving DecidableEq, Repr

/-- The sizes R7 allows: "a multiple of 16 with `32 <= MBUF_SIZE <= 65520`". -/
abbrev Params.Valid (p : Params) : Prop :=
  p.mbufSize % 16 = 0 ∧ 32 ≤ p.mbufSize ∧ p.mbufSize ≤ 65520

/-- The reference value of R7, `MBUF_SIZE = 4096`. -/
def Params.reference : Params := ⟨4096⟩

/-- FREE VALUE (U1, U2): the byte at a buffer index after the power-on or the soft reset that made the buffer's bytes
draws. The first argument numbers those resets, so that each makes fresh draws (assumption log 2). -/
opaque Config.mbufDraw : Nat → Nat → Byte

/-- FREE VALUE (U3): the word a host read of `BLK0..3`, `MLEN`, `GFR` or the MBUF window returns while `BUSY = 1`
(R72). The argument numbers those reads (assumption log 3). -/
opaque Config.busyReadDraw : Nat → Word

end Sys2Proof
end

