-- ==== Sys2Proof/Machine/State.lean ====
section
/-! DEFINITION. The state of CPAES as plain data, its reset value, and the reasons a step can stop (spec/10_state.md). -/

namespace Sys2Proof.Machine

/-- The error codes a command can report (R301). Codes 6 to 15 are "never produced", so no constructor stands for one. -/
inductive ErrCode where
  /-- 0: the command committed. -/
  | ok
  /-- 1: the command word decodes to `Illegal`. -/
  | illegal
  /-- 2: the command reads `RK` and `KV = 0`. -/
  | noKey
  /-- 3: `MLEN > MBUF_SIZE`, or a decrypt command's `MLEN` is not a multiple of 16. -/
  | length
  /-- 4: `unpad` failed. -/
  | padding
  /-- 5: the padded message would not fit in `MBUF`. -/
  | overflow
  deriving DecidableEq, Repr

/-- One bus access of the host: a 32-bit read or a 32-bit write (R20, R61). -/
inductive BusAccess where
  | read (a : BusAddr)
  | write (a : BusAddr) (d : Word)
  deriving DecidableEq, Repr

/-- One event the environment chooses. Which agent steps next is plain data, so an interleaving of host accesses and
engine steps (R20, R70) is a list of these (assumption log 4). -/
inductive Input where
  /-- The host performs one access. -/
  | host (a : BusAccess)
  /-- The engine takes its step if it is enabled (R261). -/
  | engine
  /-- The platform applies a power-on reset (R314, R340; assumption log 9). -/
  | powerOn
  deriving DecidableEq, Repr

/-- The message buffer's bytes as (index, byte) pairs with rising indices; an unlisted byte has not been written since
the reset that made it a draw (R27, R38; assumption log 2). -/
abbrev Memory := List Host.Cell

/-- The state of the machine: first the architectural tuple of R21, component by component, then the model's own fields.
`KEY`, `RK`, ... are written in lower case. -/
structure State where
  /-- `KEY`, the cipher key (R22). -/
  key : Block
  /-- `RK[0..10]`, the round keys (R23). -/
  rk : RoundKeys
  /-- `KV`, key valid (R24), `STATUS[2]`. -/
  kv : Bool
  /-- `BLK`, the block register (R25). -/
  blk : Block
  /-- `MLEN`, the message length in bytes, 16 bits (R26). -/
  mlen : BitVec 16
  /-- `MBUF`, the message buffer (R27). -/
  mbuf : Memory
  /-- `GFR`, the last product of GFMUL (R28). -/
  gfr : Byte
  /-- `CTRL.IE`, interrupt enable (R29). -/
  ie : Bool
  /-- `STATUS.BUSY` (R30), held beside `PEND` as R21 lists both (assumption log 10). -/
  busy : Bool
  /-- `STATUS.DONE` (R30). -/
  done : Bool
  /-- `STATUS.OVR` (R30, R305). -/
  ovr : Bool
  /-- `STATUS.ERRCODE` (R30, R301). -/
  errcode : ErrCode
  /-- `PEND`, the accepted command word the engine has not completed (R32). -/
  pend : Option Word
  /-- MODEL'S OWN: the parameter `MBUF_SIZE` (R7), which no step changes (assumption log 1). -/
  params : Params
  /-- MODEL'S OWN: which reset the draws of unlisted buffer bytes belong to (assumption log 2). -/
  mbufEpoch : Nat
  /-- MODEL'S OWN: how many reads have returned draws so far (assumption log 3). -/
  readDraws : Nat
  /-- MODEL'S OWN: the word the bus returned to the host's latest read, if it has read (assumption log 5). -/
  lastRead : Option Word
  /-- MODEL'S OWN: the environment's events still to come, the next one first (assumption log 4). -/
  inputs : List Input
  deriving DecidableEq, Repr

/-- Why the machine can stop with a fault: never. "The hardware has no traps and no exceptions" (R300), and "no item here
is a fault, since the hardware has no fault mechanism" (spec/93_implementation_defined.md). The type has no
constructor, so no step can raise one; that is safe. -/
inductive Fault where
  deriving DecidableEq, Repr

/-- Why a step can have no meaning. -/
inductive Refusal where
  /-- Raised by `exec` for an instruction without a meaning, by its mnemonic; safe. No arm of this model raises it. -/
  | notModelled (mnemonic : String)
  deriving DecidableEq, Repr

/-- The state after power-on reset (R38, R340): every component at the value R38 gives, no byte of `MBUF` known, `MBUF_SIZE`
at its reference value (R7), and no event to come: the core "waits for the host". The model's own fields are assumption
log 11. -/
def State.reset : State where
  key := Block.zero
  rk := Vector.replicate 11 Block.zero
  kv := false
  blk := Block.zero
  mlen := 0
  mbuf := []
  gfr := 0
  ie := false
  busy := false
  done := false
  ovr := false
  errcode := .ok
  pend := none
  params := Params.reference
  mbufEpoch := 0
  readDraws := 0
  lastRead := none
  inputs := []

end Sys2Proof.Machine
end

