-- ==== Sys2Proof/Machine/Ops.lean ====
section
/-! DEFINITION. The named operations every meaning is written with: the message buffer, ending a command (commit and raise),
the two resets and the interrupt output (spec/00_scope.md R12; spec/20_memory.md R68; spec/45_control_commands.md R261,
R262; spec/60_exceptions.md R306; spec/70_reset_and_hazards.md R340, R341). -/

namespace Sys2Proof.Machine

/-- What a step or a meaning answers. -/
abbrev Answer := Host.Outcome State Fault Refusal

/-! ## The message buffer -/

/-- The canonical form of a buffer's contents: indices strictly rising. An unlisted byte has no known value, so no entry can
equal what it reads as (assumption log 2). -/
abbrev Memory.wf (m : Memory) : Prop := m.Pairwise fun x y => x.1 < y.1

/-- The byte listed at an index, if the index is listed. -/
def Memory.lookup : Memory → Nat → Option Byte
  | [], _ => none
  | (b, v) :: m, a => if a = b then some v else Memory.lookup m a

/-- Set one byte, keeping the indices rising. -/
def Memory.set : Memory → Nat → Byte → Memory
  | [], a, v => [(a, v)]
  | (b, u) :: m, a, v =>
    if a < b then (a, v) :: (b, u) :: m
    else if a = b then (a, v) :: m
    else (b, u) :: Memory.set m a v

/-- Set consecutive bytes from an index on. -/
def Memory.setBytes : Memory → Nat → List Byte → Memory
  | m, _, [] => m
  | m, a, v :: vs => Memory.setBytes (Memory.set m a v) (a + 1) vs

/-- The byte `MBUF[i]`: the listed one, else the draw of the reset that made the buffer draws (R27, R38, U1, U2). -/
def State.mbufByte (s : State) (i : Nat) : Byte :=
  match Memory.lookup s.mbuf i with
  | some v => v
  | none => Config.mbufDraw s.mbufEpoch i

/-- `MemRead(i, n)`: the `n` bytes `MBUF[i..i+n)` (R12, R68). -/
def State.memRead (s : State) (i n : Nat) : List Byte := (List.range' i n).map s.mbufByte

/-- `MemWrite(i, n, v)` with `n = |v|`: writes the bytes `v` to `MBUF[i..i+n)` (R12, R68). -/
def State.memWrite (s : State) (i : Nat) (v : List Byte) : State := { s with mbuf := Memory.setBytes s.mbuf i v }

/-- The message `MBUF[0..MLEN)` (R26). -/
def State.message (s : State) : List Byte := s.memRead 0 s.mlen.toNat

/-- Set `MLEN` to a length (R26). -/
def State.setMlen (s : State) (n : Nat) : State := { s with mlen := BitVec.ofNat 16 n }

/-! ## Ending a command -/

/-- What a completion does to `ERRCODE`, `BUSY`, `DONE` and `PEND`, whatever the command (R261). -/
def State.complete (s : State) (code : ErrCode) : State :=
  { s with errcode := code, busy := false, done := true, pend := none }

/-- `commit`: end the command successfully; `s` carries the command's writes (R12, R261). -/
def commit (s : State) : Answer := .next (s.complete .ok)

/-- `raise Error(code)`: end the command with an error; `s` is the state at acceptance, so none of the command's writes take
effect (R12, R261, R262). -/
def raiseError (code : ErrCode) (s : State) : Answer := .next (s.complete code)

/-! ## Reset and interrupt -/

/-- Every register at its reset value, `MBUF` and the model's own fields kept: the rows of R38 that the two resets share. -/
def State.resetRegisters (s : State) : State :=
  { State.reset with
    mbuf := s.mbuf
    params := s.params
    mbufEpoch := s.mbufEpoch
    readDraws := s.readDraws
    lastRead := s.lastRead
    inputs := s.inputs }

/-- Every byte of `MBUF` becomes a fresh draw (R38, U1, U2). -/
def State.drawMbuf (s : State) : State := { s with mbuf := [], mbufEpoch := s.mbufEpoch + 1 }

/-- Power-on reset (R340). -/
def State.powerOnReset (s : State) : State := s.resetRegisters.drawMbuf

/-- PAD, UNPAD, ECBE, ECBD, CBCE and CBCD are the message commands (spec/00_scope.md section 6). -/
def isMessageCommand : Instr → Bool
  | .pad | .unpad | .ecbe | .ecbd | .cbce | .cbcd => true
  | .nop | .keyexp | .encb | .decb | .ark _ | .subb | .isubb | .shrow | .ishrow | .mixcol | .imixcol
  | .round _ | .iround _ | .gfmul _ _ => false

/-- Whether a reset now abandons a message command: `PEND = some(w)` with `w` a message command (R38). An illegal word is no
command of either kind. -/
def State.messagePending (s : State) : Bool :=
  match s.pend with
  | none => false
  | some w =>
    match decode w with
    | .ok i => isMessageCommand i
    | .error _ => false

/-- Soft reset (R341): the registers as R38 says; `MBUF` becomes draws if a message command was abandoned, else it keeps its
bytes. -/
def State.softReset (s : State) : State :=
  if s.messagePending then s.resetRegisters.drawMbuf else s.resetRegisters

/-- The interrupt output: `IRQ = IE AND DONE` (R306). -/
def State.irq (s : State) : Bool := s.ie && s.done

end Sys2Proof.Machine
end

