-- ==== Sys2Proof/Machine/Flags.lean ====
section
/-! DEFINITION. The `STATUS` and `CTRL` words and what writing them does (spec/10_state.md R29, R30; spec/60_exceptions.md
R301). -/

namespace Sys2Proof.Machine

/-- The number of an error code, the value of `STATUS[11:8]` (R301). -/
def errNumber : ErrCode → BitVec 4
  | .ok => 0
  | .illegal => 1
  | .noKey => 2
  | .length => 3
  | .padding => 4
  | .overflow => 5

/-- The `STATUS` word: `BUSY`, `DONE`, `KV`, `OVR` in bits 0 to 3, `ERRCODE` in bits 11:8, every reserved bit 0 (R30). -/
def statusWord (s : State) : Word :=
  (0 : BitVec 20) ++ errNumber s.errcode ++ (0 : BitVec 4) ++
    BitVec.ofBool s.ovr ++ BitVec.ofBool s.kv ++ BitVec.ofBool s.done ++ BitVec.ofBool s.busy

/-- The `CTRL` word as the host reads it: `IE` in bit 0, `SRST` and the reserved bits 0 (R29). -/
def ctrlWord (s : State) : Word := (0 : BitVec 31) ++ BitVec.ofBool s.ie

/-- A `STATUS` write clears `DONE` if bit 1 is set and `OVR` if bit 3 is set, and nothing else (R30). -/
def writeStatus (d : Word) (s : State) : State :=
  { s with
    done := s.done && !d.getLsbD 1
    ovr := s.ovr && !d.getLsbD 3 }

/-- A `CTRL` write with `SRST = 1` performs the soft reset and ignores its `IE` bit; one with `SRST = 0` sets
`IE <- data[0]` (R29). -/
def writeCtrl (d : Word) (s : State) : State :=
  if d.getLsbD 1 then s.softReset else { s with ie := d.getLsbD 0 }

end Sys2Proof.Machine
end

