-- ==== Sys2Proof/Machine/Operands.lean ====
section
/-! DEFINITION. The operand forms: how bytes pack into bus words, how a Block is read and written byte by byte, column by
column and cell by cell, and what each bus address names (spec/10_state.md R33; spec/20_memory.md R61 to R64;
spec/41_block_transforms.md R130). -/

namespace Sys2Proof.Machine

/-! ## Columns and bus words -/

/-- Byte `j` of a bus word, `d[8j+7:8j]` (R64). -/
def wordByte (d : Word) (j : Nat) : Byte := d.extractLsb' (8 * j) 8

/-- The four bytes of a bus word, byte 0 the least significant (R64). -/
def colOfWord (d : Word) : Col := ⟨wordByte d 0, wordByte d 1, wordByte d 2, wordByte d 3⟩

/-- The bus word `{b3, b2, b1, b0}` of four bytes (R63, R64). -/
def wordOfCol (c : Col) : Word := c.b3 ++ c.b2 ++ c.b1 ++ c.b0

/-- Entry `r` of a column, counted from the top (R130). -/
def colGet (c : Col) : Fin 4 → Byte
  | 0 => c.b0
  | 1 => c.b1
  | 2 => c.b2
  | 3 => c.b3

/-- A function on bytes applied to each byte of a column. -/
def colMap (f : Byte → Byte) (c : Col) : Col := ⟨f c.b0, f c.b1, f c.b2, f c.b3⟩

/-- The XOR of two four-byte words is bytewise (spec/42_key_schedule.md section 1). -/
def colXor (a b : Col) : Col := ⟨a.b0 ^^^ b.b0, a.b1 ^^^ b.b1, a.b2 ^^^ b.b2, a.b3 ^^^ b.b3⟩

/-! ## Blocks -/

/-- Column `c` of a Block: the bytes `b[4c], b[4c+1], b[4c+2], b[4c+3]` (R130). -/
def blockCol (b : Block) : Fin 4 → Col
  | 0 => b.c0
  | 1 => b.c1
  | 2 => b.c2
  | 3 => b.c3

/-- A Block with column `k` replaced: what a write of `KEYk` or `BLKk` does (R64). -/
def blockSetCol (b : Block) (k : Fin 4) (c : Col) : Block :=
  match k with
  | 0 => { b with c0 := c }
  | 1 => { b with c1 := c }
  | 2 => { b with c2 := c }
  | 3 => { b with c3 := c }

/-- The cell `s[r][c]` of the state matrix (R130). -/
def blockCell (b : Block) (r c : Fin 4) : Byte := colGet (blockCol b c) r

/-- The byte `b[i]` of a Block: `s[r][c] = b[r + 4c]`, so `r = i mod 4` and `c = i div 4` (R11, R130). -/
def blockByte (b : Block) (i : Fin 16) : Byte :=
  blockCell b ⟨i.val % 4, Nat.mod_lt _ (by decide)⟩ ⟨i.val / 4, by omega⟩

/-- The Block whose state matrix has the given cells, filled column by column (R130). -/
def blockOfCells (f : Fin 4 → Fin 4 → Byte) : Block where
  c0 := ⟨f 0 0, f 1 0, f 2 0, f 3 0⟩
  c1 := ⟨f 0 1, f 1 1, f 2 1, f 3 1⟩
  c2 := ⟨f 0 2, f 1 2, f 2 2, f 3 2⟩
  c3 := ⟨f 0 3, f 1 3, f 2 3, f 3 3⟩

/-- A function on columns applied to each column of a Block. -/
def blockMapCols (f : Col → Col) (b : Block) : Block := ⟨f b.c0, f b.c1, f b.c2, f b.c3⟩

/-- The four bytes of a column in order. -/
def colBytes (c : Col) : List Byte := [c.b0, c.b1, c.b2, c.b3]

/-- The 16 bytes of a Block in order (R11). -/
def blockBytesOf (b : Block) : List Byte := colBytes b.c0 ++ colBytes b.c1 ++ colBytes b.c2 ++ colBytes b.c3

/-- The column of four consecutive bytes of a sequence, from index `i`. A missing byte is taken as 0; every sequence the
machine cuts into Blocks has a length that is a multiple of 16, so none is missing (assumption log 13). -/
def colOfBytes (m : List Byte) (i : Nat) : Col := ⟨m.getD i 0, m.getD (i + 1) 0, m.getD (i + 2) 0, m.getD (i + 3) 0⟩

/-- The Block of the first 16 bytes of a sequence (R11). -/
def blockOfBytes (m : List Byte) : Block := ⟨colOfBytes m 0, colOfBytes m 4, colOfBytes m 8, colOfBytes m 12⟩

/-! ## The host's address map -/

/-- What a host address names (R33, R60). -/
inductive Target where
  | ctrl
  | status
  | cmd
  | mlen
  /-- `KEYk`. -/
  | key (k : Fin 4)
  /-- `BLKk`. -/
  | blk (k : Fin 4)
  | gfr
  /-- The reserved register words 0x034 to 0x0FF. -/
  | reserved
  /-- 0x00100 to 0x0FFFF. -/
  | unmapped
  /-- Word `k` of the MBUF window, bytes `4k .. 4k+3` of the buffer. -/
  | window (k : Nat)
  deriving DecidableEq, Repr

/-- The word address `A[16:2]`; the bits `A[1:0]` are ignored (R61). -/
def wordIndex (a : BusAddr) : Nat := a.toNat / 4

/-- The register at a word of the register block: the table of R33, offset by offset. -/
def registerAt : Nat → Target
  | 0x000 => .ctrl
  | 0x001 => .status
  | 0x002 => .cmd
  | 0x003 => .mlen
  | 0x004 => .key 0
  | 0x005 => .key 1
  | 0x006 => .key 2
  | 0x007 => .key 3
  | 0x008 => .blk 0
  | 0x009 => .blk 1
  | 0x00A => .blk 2
  | 0x00B => .blk 3
  | 0x00C => .gfr
  | _ => .reserved

/-- What an address names: the register block at 0x00000 to 0x000FF, unmapped words at 0x00100 to 0x0FFFF, the MBUF window
from 0x10000 on (R33, R60). The bounds are in words. -/
def target (a : BusAddr) : Target :=
  if wordIndex a < 0x40 then registerAt (wordIndex a)
  else if wordIndex a < 0x4000 then .unmapped
  else .window (wordIndex a - 0x4000)

/-- Whether a write to a target while `BUSY = 1` sets `OVR`: "any other mapped register or the MBUF window", not a reserved or
unmapped offset, and not `CTRL` or `STATUS`, which accept the write (R71; assumption log 6). -/
def Target.frozenByBusy : Target → Bool
  | .cmd | .mlen | .key _ | .blk _ | .gfr | .window _ => true
  | .ctrl | .status | .reserved | .unmapped => false

end Sys2Proof.Machine
end

