-- ==== Sys2Proof/Machine/Bus.lean ====
section
/-! DEFINITION. The host's bus accesses: what a read returns and what a write does, idle and while `BUSY = 1`
(spec/10_state.md R26 to R35; spec/20_memory.md R60 to R72; spec/45_control_commands.md R260). -/

namespace Sys2Proof.Machine

/-- Acceptance of a command word: the one step that moves it to `PEND` (R260). -/
def acceptCommand (w : Word) (s : State) : State := { s with pend := some w, busy := true, done := false }

/-- Whether word `k` of the MBUF window is inside the buffer: `4k + 3 < MBUF_SIZE` (R63). -/
def windowInside (s : State) (k : Nat) : Bool := decide (4 * k + 3 < s.params.mbufSize)

/-- The MBUF window word `{MBUF[4k+3], MBUF[4k+2], MBUF[4k+1], MBUF[4k]}`, or 0 outside the buffer (R63). -/
def windowWord (s : State) (k : Nat) : Word :=
  if windowInside s k then
    wordOfCol ⟨s.mbufByte (4 * k), s.mbufByte (4 * k + 1), s.mbufByte (4 * k + 2), s.mbufByte (4 * k + 3)⟩
  else 0

/-- A write of window word `k` sets those four bytes, and changes nothing outside the buffer (R63). -/
def writeWindow (k : Nat) (d : Word) (s : State) : State :=
  if windowInside s k then s.memWrite (4 * k) (colBytes (colOfWord d)) else s

/-- The word a read returns by the rules of an idle core. Write-only registers, reserved words and unmapped words read 0
(R26, R28 to R31, R34, R35, R62 to R64). -/
def readValue (s : State) : Target → Word
  | .ctrl => ctrlWord s
  | .status => statusWord s
  | .cmd => 0
  | .mlen => s.mlen.setWidth 32
  | .key _ => 0
  | .blk k => wordOfCol (blockCol s.blk k)
  | .gfr => s.gfr.setWidth 32
  | .reserved => 0
  | .unmapped => 0
  | .window k => windowWord s k

/-- While `BUSY = 1` the bits of a draw that a read can return: all of them for `BLKk` and the MBUF window, those that are not
reserved for `MLEN` and `GFR`. `none` marks a target whose reads are no draws (R72; assumption log 7). -/
def drawMask : Target → Option Word
  | .blk _ | .window _ => some 0xFFFFFFFF
  | .mlen => some 0x0000FFFF
  | .gfr => some 0x000000FF
  | .ctrl | .status | .cmd | .key _ | .reserved | .unmapped => none

/-- A host read. It returns a value and has no side effect on the hardware (R67); the model's own fields record the value
returned and count the draw, if it was one (R72). -/
def hostRead (a : BusAddr) (s : State) : State :=
  match s.busy, drawMask (target a) with
  | true, some mask =>
    { s with lastRead := some (Config.busyReadDraw s.readDraws &&& mask), readDraws := s.readDraws + 1 }
  | _, _ => { s with lastRead := some (readValue s (target a)) }

/-- What an accepted write does to its target (R26 to R34, R62 to R64, R260). -/
def writeTarget (t : Target) (d : Word) (s : State) : State :=
  match t with
  | .ctrl => writeCtrl d s
  | .status => writeStatus d s
  | .cmd => acceptCommand d s
  | .mlen => { s with mlen := d.setWidth 16 }
  | .key k => { s with key := blockSetCol s.key k (colOfWord d), kv := false }
  | .blk k => { s with blk := blockSetCol s.blk k (colOfWord d) }
  | .gfr => s
  | .reserved => s
  | .unmapped => s
  | .window k => writeWindow k d s

/-- A host write. While `BUSY = 1` only `CTRL` and `STATUS` accept it; any other mapped register and the MBUF window drop it
and set `OVR` (R71). -/
def hostWrite (a : BusAddr) (d : Word) (s : State) : State :=
  if s.busy && (target a).frozenByBusy then { s with ovr := true } else writeTarget (target a) d s

/-- One bus access of the host (R20). -/
def hostAccess (x : BusAccess) (s : State) : State :=
  match x with
  | .read a => hostRead a s
  | .write a d => hostWrite a d s

end Sys2Proof.Machine
end

