-- ==== Sys2Proof/Machine/Padding.lean ====
section
/-! DEFINITION. PKCS#7 padding and the commands PAD and UNPAD (spec/40_buffer_and_padding.md R111 to R115). -/

namespace Sys2Proof.Machine

/-- The padding count `n = 16 - (|m| mod 16)` of a message of length `len` (R111). -/
def padCount (len : Nat) : Nat := 16 - len % 16

/-- The padding bytes of a message of length `len`: `repeat(n, n)` (R111). -/
def padBytes (len : Nat) : List Byte := List.replicate (padCount len) (BitVec.ofNat 8 (padCount len))

/-- `pad(m) = m ++ repeat(n, n)` (R111). -/
def pad (m : List Byte) : List Byte := m ++ padBytes m.length

/-- `unpad(m)`: `none` where the rule says `fail` (R112). -/
def unpad (m : List Byte) : Option (List Byte) :=
  match m.getLast? with
  | none => none
  | some n =>
    if n.toNat < 1 ∨ 16 < n.toNat then none
    else if m.length < n.toNat then none
    else if (m.drop (m.length - n.toNat)).all (· == n) then some (m.take (m.length - n.toNat))
    else none

/-- The size check every message command makes first: `LENGTH` when `MLEN > MBUF_SIZE` (R302, R303). -/
def withMessageSize (s : State) (k : Answer) : Answer :=
  if s.params.mbufSize < s.mlen.toNat then raiseError .length s else k

/-- The check of the commands that grow the message: `OVERFLOW` when the padded length exceeds `MBUF_SIZE` (R302). -/
def withPaddedRoom (s : State) (k : Answer) : Answer :=
  if s.params.mbufSize < s.mlen.toNat + padCount s.mlen.toNat then raiseError .overflow s else k

/-- PAD: write the padding bytes after the message and add their count to `MLEN` (R114). -/
def execPad (s : State) : Answer :=
  withMessageSize s <| withPaddedRoom s <|
    commit ((s.memWrite s.mlen.toNat (padBytes s.mlen.toNat)).setMlen (s.mlen.toNat + padCount s.mlen.toNat))

/-- UNPAD: validate the padding and take it off `MLEN`; `MBUF` is not written (R115). -/
def execUnpad (s : State) : Answer :=
  withMessageSize s <|
    match unpad s.message with
    | none => raiseError .padding s
    | some m => commit (s.setMlen m.length)

end Sys2Proof.Machine
end

