-- ==== Sys2Proof/Machine/Galois.lean ====
section
/-! DEFINITION. Arithmetic in GF(2^8) and the GFMUL command (spec/41_block_transforms.md R131 to R136, R153). -/

namespace Sys2Proof.Machine

/-- Multiplication by `x`, the byte `0x02`, reduced by `0x11B` (R132). -/
def xtime (a : Byte) : Byte :=
  let t := a <<< 1
  if a.getLsbD 7 then t ^^^ 0x1B else t

/-- The loop of R133: `n` more turns with product so far `p`. -/
def gmulLoop : Nat → Byte → Byte → Byte → Byte
  | 0, _, _, p => p
  | n + 1, a, b, p => gmulLoop n (xtime a) (b >>> 1) (if b.getLsbD 0 then p ^^^ a else p)

/-- `a • b`, the carry-less "Russian peasant" multiplication (R133). -/
def gmul (a b : Byte) : Byte := gmulLoop 8 a b 0

/-- `inv(a)`: the byte `y` with `a • y = 1`, and `inv(0) = 0` (R135). For `a = 0` no byte qualifies. -/
def gfInv (a : Byte) : Byte :=
  match (List.range 256).find? fun y => gmul a (BitVec.ofNat 8 y) == 1 with
  | some y => BitVec.ofNat 8 y
  | none => 0

/-- The affine transform of R136: bit `i` is `y[i] ^ y[i+4] ^ y[i+5] ^ y[i+6] ^ y[i+7] ^ 0x63[i]`, indices mod 8. Bit
`i` of a left rotation by `k` is `y[i - k]`, so the five terms are rotations by 0, 4, 3, 2 and 1. -/
def affine (y : Byte) : Byte :=
  y ^^^ y.rotateLeft 4 ^^^ y.rotateLeft 3 ^^^ y.rotateLeft 2 ^^^ y.rotateLeft 1 ^^^ 0x63

/-- GFMUL a, b: `GFR <- a • b; commit` (R153). -/
def execGfmul (a b : Byte) (s : State) : Answer := commit { s with gfr := gmul a b }

end Sys2Proof.Machine
end

