-- ==== Sys2Proof/Machine/BlockTransforms.lean ====
section
/-! DEFINITION. The round steps as functions on Blocks, and the commands SUBB, ISUBB, SHROW, ISHROW, MIXCOL, IMIXCOL and ARK
(spec/40_buffer_and_padding.md R110; spec/41_block_transforms.md R139 to R152). -/

namespace Sys2Proof.Machine

/-! ## Functions -/

/-- `xor16(a, b)`, bytewise (R110). -/
def xor16 (a b : Block) : Block := ⟨colXor a.c0 b.c0, colXor a.c1 b.c1, colXor a.c2 b.c2, colXor a.c3 b.c3⟩

/-- `SubBytes(b)` (R139). -/
def subBytes (b : Block) : Block := blockMapCols (colMap sbox) b

/-- `InvSubBytes(b)` (R140). -/
def invSubBytes (b : Block) : Block := blockMapCols (colMap invSbox) b

/-- `ShiftRows(b)`: row `r` rotated left by `r`. The index `c + r` is taken mod 4 by the type `Fin 4` (R141). -/
def shiftRows (b : Block) : Block := blockOfCells fun r c => blockCell b r (c + r)

/-- `InvShiftRows(b)`: row `r` rotated right by `r`. The index `c - r` is taken mod 4 by the type `Fin 4` (R142). -/
def invShiftRows (b : Block) : Block := blockOfCells fun r c => blockCell b r (c - r)

/-- Row `r` of the matrix `M` of R143. -/
def mixRow : Fin 4 → Col
  | 0 => ⟨2, 3, 1, 1⟩
  | 1 => ⟨1, 2, 3, 1⟩
  | 2 => ⟨1, 1, 2, 3⟩
  | 3 => ⟨3, 1, 1, 2⟩

/-- Row `r` of the matrix `M'` of R144. -/
def invMixRow : Fin 4 → Col
  | 0 => ⟨14, 11, 13, 9⟩
  | 1 => ⟨9, 14, 11, 13⟩
  | 2 => ⟨13, 9, 14, 11⟩
  | 3 => ⟨11, 13, 9, 14⟩

/-- A matrix row times a column: `(m0 • a0) ^ (m1 • a1) ^ (m2 • a2) ^ (m3 • a3)` (R143). -/
def rowTimesCol (m a : Col) : Byte := gmul m.b0 a.b0 ^^^ gmul m.b1 a.b1 ^^^ gmul m.b2 a.b2 ^^^ gmul m.b3 a.b3

/-- A column multiplied by a matrix given by its rows (R143, R144). -/
def matrixTimesCol (m : Fin 4 → Col) (a : Col) : Col :=
  ⟨rowTimesCol (m 0) a, rowTimesCol (m 1) a, rowTimesCol (m 2) a, rowTimesCol (m 3) a⟩

/-- `MixColumns(b)` (R143). -/
def mixColumns (b : Block) : Block := blockMapCols (matrixTimesCol mixRow) b

/-- `InvMixColumns(b)` (R144). -/
def invMixColumns (b : Block) : Block := blockMapCols (matrixTimesCol invMixRow) b

/-- `AddRoundKey(b, k) = xor16(b, k)` (R145). -/
def addRoundKey (b k : Block) : Block := xor16 b k

/-! ## Commands -/

/-- The shape of a block command that needs no key: `BLK <- f(BLK); commit`. -/
def transformBlk (f : Block → Block) (s : State) : Answer := commit { s with blk := f s.blk }

/-- The shape of a block command that reads `RK`: `NOKEY` while `KV = 0`, else `BLK <- f(RK, BLK); commit` (R24). -/
def transformBlkKeyed (f : RoundKeys → Block → Block) (s : State) : Answer :=
  if s.kv then commit { s with blk := f s.rk s.blk } else raiseError .noKey s

/-- The shape of a format R command: `ILLEGAL` for `r > 10` before anything else (R302, R303), then as the keyed block
command `f r`. The decoder never yields such an `r` (R95; assumption log 8). -/
def transformBlkRound (f : Fin 11 → RoundKeys → Block → Block) (r : BitVec 4) (s : State) : Answer :=
  if h : r.toNat < 11 then transformBlkKeyed (f ⟨r.toNat, h⟩) s else raiseError .illegal s

/-- SUBB (R146). -/
def execSubb (s : State) : Answer := transformBlk subBytes s

/-- ISUBB (R147). -/
def execIsubb (s : State) : Answer := transformBlk invSubBytes s

/-- SHROW (R148). -/
def execShrow (s : State) : Answer := transformBlk shiftRows s

/-- ISHROW (R149). -/
def execIshrow (s : State) : Answer := transformBlk invShiftRows s

/-- MIXCOL (R150). -/
def execMixcol (s : State) : Answer := transformBlk mixColumns s

/-- IMIXCOL (R151). -/
def execImixcol (s : State) : Answer := transformBlk invMixColumns s

/-- ARK r: `BLK <- AddRoundKey(BLK, RK[r])` (R152). -/
def execArk (r : BitVec 4) (s : State) : Answer := transformBlkRound (fun k rk b => addRoundKey b rk[k]) r s

end Sys2Proof.Machine
end

