-- ==== Sys2Proof/Machine/RoundPipeline.lean ====
section
/-! DEFINITION. The round function and its inverse, the block cipher, and the commands ROUND, IROUND, ENCB and DECB
(spec/43_round_pipeline.md). -/

namespace Sys2Proof.Machine

/-- `EncRound(b, r)` with round keys `rk` (R200). -/
def encRound (rk : RoundKeys) (b : Block) (r : Fin 11) : Block :=
  if r = 0 then addRoundKey b rk[r]
  else if r = 10 then addRoundKey (shiftRows (subBytes b)) rk[r]
  else addRoundKey (mixColumns (shiftRows (subBytes b))) rk[r]

/-- `DecRound(b, r)`, the inverse of `EncRound(., r)` (R201). -/
def decRound (rk : RoundKeys) (b : Block) (r : Fin 11) : Block :=
  if r = 0 then addRoundKey b rk[r]
  else if r = 10 then invSubBytes (invShiftRows (addRoundKey b rk[r]))
  else invSubBytes (invShiftRows (invMixColumns (addRoundKey b rk[r])))

/-- The rounds in order, 0 to 10 (R6, R202). -/
def roundOrder : List (Fin 11) := [0, 1, 2, 3, 4, 5, 6, 7, 8, 9, 10]

/-- `EncBlock(b)` runs the rounds in order 0, 1, ..., 10 (R202). -/
def encBlock (rk : RoundKeys) (b : Block) : Block := roundOrder.foldl (encRound rk) b

/-- `DecBlock(b)` runs the inverse rounds in reverse order, 10, 9, ..., 0 (R203). -/
def decBlock (rk : RoundKeys) (b : Block) : Block := roundOrder.reverse.foldl (decRound rk) b

/-- ROUND r: `BLK <- EncRound(BLK, r)` (R204). -/
def execRound (r : BitVec 4) (s : State) : Answer := transformBlkRound (fun k rk b => encRound rk b k) r s

/-- IROUND r: `BLK <- DecRound(BLK, r)` (R205). -/
def execIround (r : BitVec 4) (s : State) : Answer := transformBlkRound (fun k rk b => decRound rk b k) r s

/-- ENCB: `BLK <- EncBlock(BLK)` (R206). -/
def execEncb (s : State) : Answer := transformBlkKeyed encBlock s

/-- DECB: `BLK <- DecBlock(BLK)` (R207). -/
def execDecb (s : State) : Answer := transformBlkKeyed decBlock s

end Sys2Proof.Machine
end

