-- ==== Sys2Proof/Machine/ChainingModes.lean ====
section
/-! DEFINITION. ECB and CBC over whole messages, and the commands ECBE, ECBD, CBCE and CBCD
(spec/44_chaining_modes.md). -/

namespace Sys2Proof.Machine

/-! ## Functions -/

/-- The first `q` Blocks of a byte sequence (spec/44_chaining_modes.md section 1). -/
def blocksOf : Nat → List Byte → List Block
  | 0, _ => []
  | q + 1, p => blockOfBytes p :: blocksOf q (p.drop 16)

/-- `blocks(p)`: the `|p| div 16` Blocks of a sequence. -/
def blocks (p : List Byte) : List Block := blocksOf (p.length / 16) p

/-- The bytes of Blocks, concatenated. -/
def bytesOfBlocks (bs : List Block) : List Byte := bs.flatMap blockBytesOf

/-- `EcbEnc(m)`: pad, then encrypt each Block independently (R230). -/
def ecbEnc (rk : RoundKeys) (m : List Byte) : List Byte := bytesOfBlocks ((blocks (pad m)).map (encBlock rk))

/-- The decrypted, still padded bytes of `EcbDec(c)` (R231). -/
def ecbDecBytes (rk : RoundKeys) (c : List Byte) : List Byte := bytesOfBlocks ((blocks c).map (decBlock rk))

/-- `EcbDec(c)`: decrypt each Block independently, then unpad (R231). -/
def ecbDec (rk : RoundKeys) (c : List Byte) : Option (List Byte) := unpad (ecbDecBytes rk c)

/-- The loop of `CbcEnc`: each Block is XORed with the previous ciphertext Block, then encrypted (R232). -/
def cbcEncLoop (rk : RoundKeys) : Block → List Block → List Block
  | _, [] => []
  | prev, p :: ps =>
    let c := encBlock rk (xor16 p prev)
    c :: cbcEncLoop rk c ps

/-- `CbcEnc(m)`, from the all-zero initial value (R232). -/
def cbcEnc (rk : RoundKeys) (m : List Byte) : List Byte :=
  bytesOfBlocks (cbcEncLoop rk Block.zero (blocks (pad m)))

/-- The loop of `CbcDec`: each Block is decrypted and XORed with the previous ciphertext Block (R233). -/
def cbcDecLoop (rk : RoundKeys) : Block → List Block → List Block
  | _, [] => []
  | prev, c :: cs => xor16 (decBlock rk c) prev :: cbcDecLoop rk c cs

/-- The decrypted, still padded bytes of `CbcDec(c)`, from the all-zero initial value (R233). -/
def cbcDecBytes (rk : RoundKeys) (c : List Byte) : List Byte :=
  bytesOfBlocks (cbcDecLoop rk Block.zero (blocks c))

/-- `CbcDec(c)` (R233). -/
def cbcDec (rk : RoundKeys) (c : List Byte) : Option (List Byte) := unpad (cbcDecBytes rk c)

/-! ## Commands -/

/-- The key check: `NOKEY` while `KV = 0` (R24, R302). -/
def withKey (s : State) (k : Answer) : Answer := if s.kv then k else raiseError .noKey s

/-- The check of the decrypt commands: `LENGTH` when `MLEN mod 16 != 0` (R302). -/
def withWholeBlocks (s : State) (k : Answer) : Answer := if s.mlen.toNat % 16 = 0 then k else raiseError .length s

/-- The shape of ECBE and CBCE: the checks in the order of R303, then `MemWrite(0, L, f(m))` and `MLEN <- L` (R234, R236). -/
def encryptMessage (f : RoundKeys → List Byte → List Byte) (s : State) : Answer :=
  withMessageSize s <| withKey s <| withPaddedRoom s <|
    commit ((s.memWrite 0 (f s.rk s.message)).setMlen (s.mlen.toNat + padCount s.mlen.toNat))

/-- The shape of ECBD and CBCD: the checks in the order of R303, then `p = f(c)`; where `unpad(p)` fails, `PADDING` and
nothing is written, else `MemWrite(0, MLEN, p)` and `MLEN <- |m|` (R235, R237). -/
def decryptMessage (f : RoundKeys → List Byte → List Byte) (s : State) : Answer :=
  withMessageSize s <| withKey s <| withWholeBlocks s <|
    match unpad (f s.rk s.message) with
    | none => raiseError .padding s
    | some m => commit ((s.memWrite 0 (f s.rk s.message)).setMlen m.length)

/-- ECBE (R234). -/
def execEcbe (s : State) : Answer := encryptMessage ecbEnc s

/-- ECBD (R235). -/
def execEcbd (s : State) : Answer := decryptMessage ecbDecBytes s

/-- CBCE (R236). -/
def execCbce (s : State) : Answer := encryptMessage cbcEnc s

/-- CBCD (R237). -/
def execCbcd (s : State) : Answer := decryptMessage cbcDecBytes s

end Sys2Proof.Machine
end

