-- ==== Sys2Proof/Machine/Control.lean ====
section
/-! DEFINITION. NOP and the completion of an illegal word (spec/45_control_commands.md R263, R264). -/

namespace Sys2Proof.Machine

/-- NOP: `commit` with no writes (R263). -/
def execNop (s : State) : Answer := commit s

/-- An illegal word: `raise Error(ILLEGAL)` (R264). -/
def completeIllegal (s : State) : Answer := raiseError .illegal s

end Sys2Proof.Machine
end

