-- ==== Sys2Proof/Machine/KeySchedule.lean ====
section
/-! DEFINITION. The key schedule and the KEYEXP command (spec/42_key_schedule.md). -/

namespace Sys2Proof.Machine

/-- `RotWord([w0, w1, w2, w3]) = [w1, w2, w3, w0]` (R181). -/
def rotWord (w : Col) : Col := ⟨w.b1, w.b2, w.b3, w.b0⟩

/-- `SubWord` applies `S` to each byte (R182). -/
def subWord (w : Col) : Col := colMap sbox w

/-- `Rcon[0..10]` (R183); entry 0 is never used, and there is none past 10 (assumption log 13). -/
def rcon : Nat → Byte
  | 1 => 0x01
  | 2 => 0x02
  | 3 => 0x04
  | 4 => 0x08
  | 5 => 0x10
  | 6 => 0x20
  | 7 => 0x40
  | 8 => 0x80
  | 9 => 0x1B
  | 10 => 0x36
  | _ => 0x00

/-- The round key after `prev`, with round constant `rc` in byte 0 of the word `t` (R180). -/
def nextRoundKey (prev : Block) (rc : Byte) : Block :=
  let t := colXor (subWord (rotWord prev.c3)) ⟨rc, 0x00, 0x00, 0x00⟩
  let w0 := colXor prev.c0 t
  let w1 := colXor prev.c1 w0
  let w2 := colXor prev.c2 w1
  let w3 := colXor prev.c3 w2
  ⟨w0, w1, w2, w3⟩

/-- `RK[r]` of the expansion of a key: `RK[0]` is the key, and `RK[r]` follows `RK[r-1]` with `Rcon[r]` (R180). -/
def roundKeyOf (key : Block) : Nat → Block
  | 0 => key
  | r + 1 => nextRoundKey (roundKeyOf key r) (rcon (r + 1))

/-- `expand(key)`: the 11 round keys `RK[0..10]` (R180, R184). -/
def expand (key : Block) : RoundKeys :=
  #v[roundKeyOf key 0, roundKeyOf key 1, roundKeyOf key 2, roundKeyOf key 3, roundKeyOf key 4, roundKeyOf key 5,
     roundKeyOf key 6, roundKeyOf key 7, roundKeyOf key 8, roundKeyOf key 9, roundKeyOf key 10]

/-- KEYEXP: `RK[0..10] <- expand(KEY); KV <- 1; commit` (R185). -/
def execKeyexp (s : State) : Answer := commit { s with rk := expand s.key, kv := true }

end Sys2Proof.Machine
end

