-- ==== Sys2Proof/Machine/Dispatch.lean ====
section
/-! DEFINITION. One arm per command: the dispatch of spec/45_control_commands.md R265. -/

namespace Sys2Proof.Machine

def exec (i : Instr) (s : State) : Host.Outcome State Fault Refusal :=
  match i with
  | .nop => Sys2Proof.Machine.execNop s
  | .keyexp => Sys2Proof.Machine.execKeyexp s
  | .encb => Sys2Proof.Machine.execEncb s
  | .decb => Sys2Proof.Machine.execDecb s
  | .ark r => Sys2Proof.Machine.execArk r s
  | .subb => Sys2Proof.Machine.execSubb s
  | .isubb => Sys2Proof.Machine.execIsubb s
  | .shrow => Sys2Proof.Machine.execShrow s
  | .ishrow => Sys2Proof.Machine.execIshrow s
  | .mixcol => Sys2Proof.Machine.execMixcol s
  | .imixcol => Sys2Proof.Machine.execImixcol s
  | .round r => Sys2Proof.Machine.execRound r s
  | .iround r => Sys2Proof.Machine.execIround r s
  | .pad => Sys2Proof.Machine.execPad s
  | .unpad => Sys2Proof.Machine.execUnpad s
  | .ecbe => Sys2Proof.Machine.execEcbe s
  | .ecbd => Sys2Proof.Machine.execEcbd s
  | .cbce => Sys2Proof.Machine.execCbce s
  | .cbcd => Sys2Proof.Machine.execCbcd s
  | .gfmul a b => Sys2Proof.Machine.execGfmul a b s

end Sys2Proof.Machine
end

