-- ==== Sys2Proof/Machine/Step.lean ====
section
/-! DEFINITION. One step of the machine: a host access, the engine's completion step, or a power-on reset
(spec/10_state.md R20; spec/20_memory.md R70; spec/45_control_commands.md R261). -/

namespace Sys2Proof.Machine

/-- The engine completes the command word `w`: it decodes it and runs it, an illegal word completing with `ILLEGAL`
(R261, R264, R265). -/
def completeWord (w : Word) (s : State) : Host.Outcome State Fault Refusal :=
  match decode w with
  | .ok i => exec i s
  | .error _ => completeIllegal s

/-- The engine's step, enabled exactly when `PEND = some(w)`; where it is not enabled nothing happens (R32, R261). -/
def engineStep (s : State) : Host.Outcome State Fault Refusal :=
  match s.pend with
  | some w => completeWord w s
  | none => .next s

/-- One step. The next event of the environment says who steps; where no event is left, the engine takes the completion step
it still has (R261, R351), and with none pending the core waits for the host (R340). -/
def step (s : State) : Host.Outcome State Fault Refusal :=
  match s.inputs with
  | [] => engineStep s
  | .host a :: rest => .next (hostAccess a { s with inputs := rest })
  | .engine :: rest => engineStep { s with inputs := rest }
  | .powerOn :: rest => .next { s with inputs := rest }.powerOnReset

/-- The state in which the very next step runs the command word `w` (its bits above `nbits` zero): `w` has been accepted as
R260 says, and the environment lets the engine step next. The core fetches nothing from memory (R36, R75); assumption
log 4 says how a program comes to run from reset. -/
def State.withFetchWord (s : State) (nbits w : Nat) : State :=
  acceptCommand (BitVec.ofNat 32 (w % 2 ^ nbits)) { s with inputs := .engine :: s.inputs }

end Sys2Proof.Machine
end

