-- ==== Sys2Proof/Machine/HostProgram.lean ====
section
/-! DEFINITION. Host programs: the bus accesses that a line of the assembler syntax stands for, and the pseudo-instructions
(spec/30_encoding.md R99, R101). A program is the list of events it puts before the machine. -/

namespace Sys2Proof.Machine

/-- A line of a host program (R99). `wait n` is `WAIT` in the run where `n` of its reads still see `BUSY = 1` before the engine
completes: how many is a draw (R9, R261), so a claim about a program quantifies over it. -/
inductive HostLine where
  | wr (a : BusAddr) (d : Word)
  | rd (a : BusAddr)
  | cmd (w : Word)
  | wait (n : Nat)
  deriving DecidableEq, Repr

/-- The address of `STATUS` (R33). -/
def statusAddr : BusAddr := 0x00004

/-- The address of `CMD` (R33). -/
def cmdAddr : BusAddr := 0x00008

/-- The address of `KEYk` (R33). -/
def keyAddr (k : Fin 4) : BusAddr := BitVec.ofNat 17 (0x00010 + 4 * k.val)

/-- The address of `BLKk` (R33). -/
def blkAddr (k : Fin 4) : BusAddr := BitVec.ofNat 17 (0x00020 + 4 * k.val)

/-- The address of window word `MBUF+k` (R99). -/
def mbufAddr (k : Nat) : BusAddr := BitVec.ofNat 17 (0x10000 + 4 * k)

/-- The events of a line (R99). -/
def lineInputs : HostLine → List Input
  | .wr a d => [.host (.write a d)]
  | .rd a => [.host (.read a)]
  | .cmd w => [.host (.write cmdAddr w)]
  | .wait n => List.replicate n (.host (.read statusAddr)) ++ [.engine, .host (.read statusAddr)]

/-- The events of a program. -/
def programInputs (p : List HostLine) : List Input := p.flatMap lineInputs

/-- `EXEC` = `CMD` then `WAIT` (R101). -/
def execLines (w : Word) (n : Nat) : List HostLine := [.cmd w, .wait n]

/-- `LDKEY k0, k1, k2, k3` (R101). -/
def ldkeyLines (k0 k1 k2 k3 : Word) : List HostLine :=
  [.wr (keyAddr 0) k0, .wr (keyAddr 1) k1, .wr (keyAddr 2) k2, .wr (keyAddr 3) k3]

/-- `LDBLK w0, w1, w2, w3` (R101). -/
def ldblkLines (w0 w1 w2 w3 : Word) : List HostLine :=
  [.wr (blkAddr 0) w0, .wr (blkAddr 1) w1, .wr (blkAddr 2) w2, .wr (blkAddr 3) w3]

/-- `RDBLK` (R101). -/
def rdblkLines : List HostLine := [.rd (blkAddr 0), .rd (blkAddr 1), .rd (blkAddr 2), .rd (blkAddr 3)]

/-- `CHECK` reads `STATUS` (R101). -/
def checkLines : List HostLine := [.rd statusAddr]

/-- What `CHECK` requires of the word it read: `STATUS[11:8] == 0` (R101). -/
def checkOk (status : Word) : Bool := status.extractLsb' 8 4 == 0

/-- The machine with a host program before it. -/
def State.withProgram (s : State) (p : List HostLine) : State := { s with inputs := programInputs p }

end Sys2Proof.Machine
end

