-- ==== Sys2Proof/Safety.lean ====
section
/-! DEFINITION. The terms the claims use: the invariant, a finished run, how a command has ended, what it left unchanged, and
the error code the rules give (spec/60_exceptions.md R301 to R303; spec/70_reset_and_hazards.md R351). -/

namespace Sys2Proof.Machine

/-! ## The invariant -/

/-- The buffer's contents are in canonical form and list only bytes of the buffer (R27, R68). -/
abbrev State.MbufOk (s : State) : Prop := s.mbuf.wf ∧ ∀ x ∈ s.mbuf, x.1 < s.params.mbufSize

/-- What holds in every state the hardware can be in:
the parameter is legal (R7), the buffer is in form, `BUSY = 1` exactly when `PEND = some(w)` (R32), `DONE` is 0 while a
command is in progress (R260, R308), and `KV = 1` means that `RK` holds the expansion of the current `KEY` (R24). -/
abbrev State.Inv (s : State) : Prop :=
  s.params.Valid ∧ s.MbufOk ∧ s.busy = s.pend.isSome ∧ (s.busy = true → s.done = false) ∧
    (s.kv = true → s.rk = expand s.key)

/-- The end of a run: no event is left and `PEND = none` (R351). -/
abbrev State.Finished (s : State) : Prop := s.inputs = [] ∧ s.pend = none

/-- Every register at the value of the table of R38. -/
abbrev RegistersAtReset (t : State) : Prop :=
  t.key = Block.zero ∧ (∀ r : Fin 11, t.rk[r] = Block.zero) ∧ t.kv = false ∧ t.blk = Block.zero ∧ t.mlen = 0 ∧ t.gfr = 0 ∧
    t.ie = false ∧ t.busy = false ∧ t.done = false ∧ t.ovr = false ∧ t.errcode = .ok ∧ t.pend = none

/-! ## Which step it is -/

/-- The step from `s` is the engine's: the environment gives it the turn, or has no event left (R261; assumption log 4). -/
abbrev State.EngineTurn (s : State) : Prop := s.inputs = [] ∨ ∃ rest, s.inputs = .engine :: rest

/-- The step from `s` to `t` is the completion of a pending word: the engine steps, and nothing is pending after it
(R261). -/
abbrev CompletionStep (s t : State) (w : Word) : Prop := s.EngineTurn ∧ s.pend = some w ∧ t.pend = none

/-- The step from `s` is a reset: a power-on reset, or a `CTRL` write with bit 1 set (R29, R340, R341). -/
abbrev State.ResetTurn (s : State) : Prop :=
  (∃ rest, s.inputs = .powerOn :: rest) ∨
    ∃ (a : BusAddr) (d : Word) (rest : List Input), s.inputs = .host (.write a d) :: rest ∧ a.toNat / 4 = 0 ∧
      d.getLsbD 1 = true

/-! ## How a command ended and what it left unchanged -/

/-- `t` is a state right after the completion of a command with the code `c` (R261). -/
abbrev State.CompletedWith (t : State) (c : ErrCode) : Prop :=
  t.errcode = c ∧ t.busy = false ∧ t.done = true ∧ t.pend = none

/-- Everything outside the command's reach: `IE`, `OVR` and the model's own fields (R261). -/
abbrev SameControl (s t : State) : Prop :=
  t.ie = s.ie ∧ t.ovr = s.ovr ∧ t.params = s.params ∧ t.mbufEpoch = s.mbufEpoch ∧ t.readDraws = s.readDraws ∧
    t.lastRead = s.lastRead ∧ t.inputs = s.inputs

/-- Every byte of the message buffer reads as before. -/
abbrev SameBuffer (s t : State) : Prop := ∀ a, t.mbufByte a = s.mbufByte a

/-- Every byte of the message buffer outside `lo .. lo + n - 1` reads as before. -/
abbrev SameBufferOutside (lo n : Nat) (s t : State) : Prop := ∀ a, a < lo ∨ lo + n ≤ a → t.mbufByte a = s.mbufByte a

/-- The data state R262 lists, and only it, is as before: `KEY`, `RK`, `KV`, `BLK`, `MLEN`, `MBUF` and `GFR`. `MBUF` is the
list of written bytes together with the number of the reset whose draws the unlisted bytes are, so every byte reads as before
(`SameBuffer`). -/
abbrev SameData (s t : State) : Prop :=
  t.key = s.key ∧ t.rk = s.rk ∧ t.kv = s.kv ∧ t.blk = s.blk ∧ t.mlen = s.mlen ∧
    (t.mbuf = s.mbuf ∧ t.mbufEpoch = s.mbufEpoch) ∧ t.gfr = s.gfr

/-- The frame of a command that writes `BLK` and nothing else of the data state. -/
abbrev OnlyBlkChanges (s t : State) : Prop :=
  SameControl s t ∧ t.key = s.key ∧ t.rk = s.rk ∧ t.kv = s.kv ∧ t.mlen = s.mlen ∧ t.gfr = s.gfr ∧ SameBuffer s t

/-- The frame of a command that writes `GFR` and nothing else of the data state. -/
abbrev OnlyGfrChanges (s t : State) : Prop :=
  SameControl s t ∧ t.key = s.key ∧ t.rk = s.rk ∧ t.kv = s.kv ∧ t.blk = s.blk ∧ t.mlen = s.mlen ∧ SameBuffer s t

/-- The frame of a command that writes `RK` and `KV` and nothing else of the data state. -/
abbrev OnlyRoundKeysChange (s t : State) : Prop :=
  SameControl s t ∧ t.key = s.key ∧ t.blk = s.blk ∧ t.mlen = s.mlen ∧ t.gfr = s.gfr ∧ SameBuffer s t

/-- The frame of a command that writes `MLEN` and the buffer bytes `lo .. lo + n - 1` and nothing else of the data
state. -/
abbrev OnlyMessageChanges (lo n : Nat) (s t : State) : Prop :=
  SameControl s t ∧ t.key = s.key ∧ t.rk = s.rk ∧ t.kv = s.kv ∧ t.blk = s.blk ∧ t.gfr = s.gfr ∧
    SameBufferOutside lo n s t

/-! ## The error code the rules give -/

/-- The commands that read `RK` (R23). -/
def readsRoundKeys : Instr → Bool
  | .ark _ | .round _ | .iround _ | .encb | .decb | .ecbe | .ecbd | .cbce | .cbcd => true
  | .nop | .keyexp | .subb | .isubb | .shrow | .ishrow | .mixcol | .imixcol | .pad | .unpad | .gfmul _ _ => false

/-- The commands that grow the message (R302, column OVERFLOW). -/
def growsMessage : Instr → Bool
  | .pad | .ecbe | .cbce => true
  | .nop | .keyexp | .encb | .decb | .ark _ | .subb | .isubb | .shrow | .ishrow | .mixcol | .imixcol
  | .round _ | .iround _ | .unpad | .ecbd | .cbcd | .gfmul _ _ => false

/-- The commands that decrypt a message (R302, column LENGTH). -/
def decryptsMessage : Instr → Bool
  | .ecbd | .cbcd => true
  | .nop | .keyexp | .encb | .decb | .ark _ | .subb | .isubb | .shrow | .ishrow | .mixcol | .imixcol
  | .round _ | .iround _ | .pad | .unpad | .ecbe | .cbce | .gfmul _ _ => false

/-- The byte sequence a command unpads, if it unpads one (R302, column PADDING). -/
def unpadInput (i : Instr) (s : State) : Option (List Byte) :=
  match i with
  | .unpad => some s.message
  | .ecbd => some (ecbDecBytes s.rk s.message)
  | .cbcd => some (cbcDecBytes s.rk s.message)
  | .nop | .keyexp | .encb | .decb | .ark _ | .subb | .isubb | .shrow | .ishrow | .mixcol | .imixcol
  | .round _ | .iround _ | .pad | .ecbe | .cbce | .gfmul _ _ => none

/-- Whether a command unpads a sequence and the unpadding fails (R112). -/
def paddingFails (i : Instr) (s : State) : Bool :=
  match unpadInput i s with
  | none => false
  | some m => (unpad m).isNone

/-- The code of the first condition of a list that holds, `OK` if none does (R303). -/
def firstCode : List (Bool × ErrCode) → ErrCode
  | [] => .ok
  | (holds, code) :: rest => if holds then code else firstCode rest

/-- The conditions of R302 on a decoded command in the order of R303; `ILLEGAL`, the first of the list, is for words that
decode to no command. -/
def errorConditions (i : Instr) (s : State) : List (Bool × ErrCode) :=
  [(isMessageCommand i && decide (s.mlen.toNat > s.params.mbufSize), .length),
   (readsRoundKeys i && !s.kv, .noKey),
   (decryptsMessage i && decide (s.mlen.toNat % 16 ≠ 0), .length),
   (growsMessage i && decide (s.mlen.toNat + (16 - s.mlen.toNat % 16) > s.params.mbufSize), .overflow),
   (paddingFails i s, .padding)]

end Sys2Proof.Machine
end

