-- ==== Sys2Proof/Certificates/Slice0/Obligations.lean ====
section
/-! DEFINITION. The statements for the provers. Addresses are written as word addresses `a.toNat / 4 = A[16:2]` (R61), so that
0, 1, 2, 3 are CTRL, STATUS, CMD, MLEN, 4 + k is KEYk, 8 + k is BLKk, 12 is GFR, and 0x4000 + k is word k of the MBUF window
(R33). -/

open Sys2Proof Sys2Proof.Machine

/-! ## Encoding -/

/-- Words written out from spec/30_encoding.md, and what R95 decodes them to: one of each family, and one of each kind of
illegal word of R96. -/
def Obligations.SpecWordsDecodeToTheirCommands : Prop :=
  decode 0x00000000 = .ok .nop ∧ decode 0x00000001 = .ok .keyexp ∧ decode 0x00000003 = .ok .decb ∧
    decode 0x00000A10 = .ok (.ark 10) ∧ decode 0x00000016 = .ok .imixcol ∧ decode 0x00000218 = .ok (.iround 2) ∧
    decode 0x00000020 = .ok .pad ∧ decode 0x00000031 = .ok .ecbd ∧ decode 0x00835740 = .ok (.gfmul 0x57 0x83) ∧
    decode 0x00000004 = .error .unassignedOpcode ∧ decode 0x80000002 = .error .reservedBits ∧
    decode 0x00000B10 = .error .roundIndex

/-- Every well-formed command, with every operand its encoding admits, decodes from its own word (R95, R100). -/
def Obligations.EncodeThenDecodeGivesTheCommand : Prop :=
  ∀ i : Instr, i.wf = true → decode (encode i) = .ok i

/-- Each word has one meaning: a word that decodes is the word its command encodes to, and its command is well formed
(R95, R100). -/
def Obligations.DecodedWordIsTheWordOfItsCommand : Prop :=
  ∀ (w : Word) (i : Instr), decode w = .ok i → i.wf = true ∧ encode i = w

/-- The decoder and the opcode table agree on every word: "a word decodes to the row whose `mask` and `match` it meets ... with
its field constraints holding, and to `Illegal` when no row takes it" (the last sentence of R95). -/
def Obligations.DecoderAgreesWithTheOpcodeTable : Prop :=
  ∀ w : Word,
    (∀ i, decode w = .ok i → ∃ row ∈ opcodeTable, row.takes w = true ∧ row.mnemonic = i.mnemonic) ∧
      ∀ row ∈ opcodeTable, row.takes w = true → ∃ i, decode w = .ok i ∧ i.mnemonic = row.mnemonic

/-- Which words are illegal, in numbers (R96), and what becomes of one: it is accepted like any command and completes with
`ILLEGAL` and no other effect, whatever the state (R264). -/
def Obligations.IllegalWordsAreThoseListedAndOnlyReportIllegal : Prop :=
  ∀ w : Word,
    ((∃ e, decode w = .error e) ↔
      (let op := w.toNat % 256
       (0x04 ≤ op ∧ op ≤ 0x0F ∨ 0x19 ≤ op ∧ op ≤ 0x1F ∨ 0x22 ≤ op ∧ op ≤ 0x2F ∨ 0x34 ≤ op ∧ op ≤ 0x3F ∨ 0x41 ≤ op) ∨
         ((op = 0x10 ∨ op = 0x17 ∨ op = 0x18) ∧ (w.toNat / 4096 ≠ 0 ∨ 11 ≤ w.toNat / 256 % 16)) ∨
         (op = 0x40 ∧ w.toNat / 16777216 ≠ 0) ∨
         (op ∉ [0x10, 0x17, 0x18, 0x40] ∧ w.toNat / 256 ≠ 0))) ∧
      ∀ e, decode w = .error e →
        (∀ (s : State) (a : BusAddr), a.toNat / 4 = 2 → s.busy = false →
          hostWrite a w s = { s with pend := some w, busy := true, done := false }) ∧
        ∀ s : State, s.pend = some w →
          engineStep s = .next { s with errcode := .illegal, busy := false, done := true, pend := none }

/-! ## Steps and the life cycle of a command -/

/-- A step runs the decoded command: where the engine is to step and the pending word decodes to `i`, the step is `exec i` of
that state, with the event that let the engine step taken off the list (R261, R265). Where the pending word is illegal, the
step is its completion with `ILLEGAL` and no other effect (R264). With the host or a power-on reset next,
the step is that access or that reset; an engine with nothing pending does nothing (R32). That the environment's events stand
in State is the model's choice (assumption logs 4 and 9). -/
def Obligations.StepRunsTheDecodedCommand : Prop :=
  ∀ (s : State) (rest : List Input),
    (∀ w i, s.pend = some w → decode w = .ok i →
      (s.inputs = [] → step s = exec i s) ∧
        (s.inputs = .engine :: rest → step s = exec i { s with inputs := rest })) ∧
      (∀ w e, s.pend = some w → decode w = .error e →
        (s.inputs = [] → step s = .next { s with errcode := .illegal, busy := false, done := true, pend := none }) ∧
          (s.inputs = .engine :: rest →
            step s = .next { s with errcode := .illegal, busy := false, done := true, pend := none, inputs := rest })) ∧
      (s.pend = none →
        (s.inputs = [] → step s = .next s) ∧ (s.inputs = .engine :: rest → step s = .next { s with inputs := rest })) ∧
      (∀ x, s.inputs = .host x :: rest → step s = .next (hostAccess x { s with inputs := rest })) ∧
      (s.inputs = .powerOn :: rest → step s = .next { s with inputs := rest }.powerOnReset)

/-- No step faults or is refused: the hardware has no traps (R300), and every command has its meaning. -/
def Obligations.EveryStepAnswersANextState : Prop :=
  ∀ s : State, ∃ t, step s = .next t

/-- A `CMD` write to an idle core is the acceptance of its word and changes nothing else; while a command is in progress it is
ignored and sets `OVR`, and every write but a soft reset leaves each input of the command, and the command, as they are
(R260). -/
def Obligations.CommandWriteIsAcceptedOnlyWhenIdle : Prop :=
  ∀ s : State,
    (∀ (a : BusAddr) (w : Word), a.toNat / 4 = 2 →
      (s.pend = none → s.busy = false → hostWrite a w s = { s with pend := some w, busy := true, done := false }) ∧
        (s.pend.isSome = true → s.busy = true → hostWrite a w s = { s with ovr := true })) ∧
      (s.busy = true → ∀ (a : BusAddr) (d : Word), ¬(a.toNat / 4 = 0 ∧ d.getLsbD 1 = true) →
        SameData s (hostWrite a d s) ∧ (hostWrite a d s).pend = s.pend)

/-- A command never hangs: from every state of the invariant, once the events before it are used up, nothing is pending
(R261). The bound, the number of events left, is the model's (assumption log 4). -/
def Obligations.EveryRunEndsWithNothingPending : Prop :=
  ∀ s : State, s.Inv → ∃ t, Host.Core.run core (s.inputs.length + 1) s = .next t ∧ t.Finished ∧ t.busy = false

/-- `EXEC` of any word on an idle core, whatever number `n` of polls see `BUSY = 1`, ends in the state the word's completion
gives, and the last poll reads that state's `STATUS` (R9, R99, R101, R261). A program as a list of events is the model's form
(assumption log 4), and so is the record of the word read (assumption log 5). -/
def Obligations.ExecLinesEndInTheCompletedState : Prop :=
  ∀ (s : State) (w : Word) (n : Nat), s.pend = none → s.busy = false →
    ∃ t u, completeWord w (acceptCommand w s) = .next t ∧
      Host.Core.run core (n + 3) (s.withProgram (execLines w n)) = .next u ∧
      SameData t u ∧ u.CompletedWith t.errcode ∧ u.ie = s.ie ∧ u.ovr = s.ovr ∧ u.lastRead = some (statusWord t) ∧
      u.Finished

/-- Each completion has the code that R303 gives: `ILLEGAL` for an illegal word, else the first of the conditions of R302 that
holds, in the order of R303: "the command reports the first of this list and checks nothing after it". -/
def Obligations.CommandsReportTheFirstErrorThatHolds : Prop :=
  ∀ (w : Word) (s : State), ∃ t, completeWord w s = .next t ∧
    (∀ e, decode w = .error e → t.errcode = .illegal) ∧
      ∀ i, decode w = .ok i → t.errcode = firstCode (errorConditions i s)

/-- Commit on success: a command that ends with an error changes `ERRCODE`, `DONE`, `BUSY` and `PEND` and nothing else, and
no command changes `IE` or `OVR` (R262). -/
def Obligations.FailedCommandChangesOnlyStatus : Prop :=
  ∀ (i : Instr) (s t : State), exec i s = .next t →
    t.busy = false ∧ t.done = true ∧ t.pend = none ∧ SameControl s t ∧
      (t.errcode ≠ .ok → t = { s with errcode := t.errcode, busy := false, done := true, pend := none })

/-- A command's result does not depend on `IE`, `DONE`, `OVR` or `ERRCODE` (R265): two states that differ only in those give
the same data state and the same code. -/
def Obligations.CommandResultIgnoresTheStatusFlags : Prop :=
  ∀ (i : Instr) (s : State) (ie done ovr : Bool) (c : ErrCode) (t : State), exec i s = .next t →
    ∃ u, exec i { s with ie := ie, done := done, ovr := ovr, errcode := c } = .next u ∧ SameData t u ∧
      u.errcode = t.errcode

/-- Message commands touch neither `BLK` nor the key side nor a byte outside the buffer; the other commands touch neither
`MLEN` nor any byte of `MBUF` (R25, R68; D36). -/
def Obligations.MessageAndBlockCommandsKeepApart : Prop :=
  ∀ (i : Instr) (s t : State), s.mbuf.wf → exec i s = .next t →
    (isMessageCommand i = true →
      t.blk = s.blk ∧ t.key = s.key ∧ t.rk = s.rk ∧ t.kv = s.kv ∧ t.gfr = s.gfr ∧
        ∀ a, s.params.mbufSize ≤ a → t.mbufByte a = s.mbufByte a) ∧
      (isMessageCommand i = false → t.mlen = s.mlen ∧ SameBuffer s t)

/-- "Only `KEYEXP` writes" the round keys (R23), and only GFMUL writes `GFR` (R28): a step that changes one is the engine's
completion of that command, the engine's turn with nothing pending after it, or a reset. -/
def Obligations.OnlyKeyexpAndGfmulAndResetsWriteTheirRegisters : Prop :=
  ∀ s t : State, step s = .next t →
    (t.rk ≠ s.rk → (∃ w, decode w = .ok .keyexp ∧ CompletionStep s t w) ∨ s.ResetTurn) ∧
      (t.gfr ≠ s.gfr → (∃ w a b, decode w = .ok (.gfmul a b) ∧ CompletionStep s t w) ∨ s.ResetTurn)

/-- `KV` rises only at the completion of KEYEXP, and falls only by an accepted write of a `KEYk` or a reset (R24). -/
def Obligations.KeyValidRisesOnlyByKeyexpAndFallsOnlyByKeyWriteOrReset : Prop :=
  ∀ s t : State, step s = .next t →
    (s.kv = false → t.kv = true → ∃ w, decode w = .ok .keyexp ∧ CompletionStep s t w) ∧
      (s.kv = true → t.kv = false →
        (∃ (a : BusAddr) (d : Word) (rest : List Input), s.inputs = .host (.write a d) :: rest ∧ s.busy = false ∧
          4 ≤ a.toNat / 4 ∧ a.toNat / 4 ≤ 7) ∨ s.ResetTurn)

/-- `OVR` rises only by a host write that a busy core drops, and then "stays set until the host writes 1 to it or a reset
clears it" (R305). -/
def Obligations.OverrunFlagIsSetByDroppedWritesAndStays : Prop :=
  ∀ s t : State, step s = .next t →
    (s.ovr = false → t.ovr = true →
      ∃ (a : BusAddr) (d : Word) (rest : List Input), s.inputs = .host (.write a d) :: rest ∧ s.busy = true ∧
        (2 ≤ a.toNat / 4 ∧ a.toNat / 4 ≤ 12 ∨ 0x4000 ≤ a.toNat / 4)) ∧
      (s.ovr = true → t.ovr = false →
        (∃ (a : BusAddr) (d : Word) (rest : List Input), s.inputs = .host (.write a d) :: rest ∧ a.toNat / 4 = 1 ∧
          d.getLsbD 3 = true) ∨ s.ResetTurn)

/-- `DONE` rises only at the completion of the pending command, and falls only by a `STATUS` write with bit 1 set, the
acceptance of a command or a reset (R30, R308). -/
def Obligations.DoneRisesOnlyAtCompletion : Prop :=
  ∀ s t : State, step s = .next t →
    (s.done = false → t.done = true → ∃ w, CompletionStep s t w) ∧
      (s.done = true → t.done = false →
        (∃ (a : BusAddr) (d : Word) (rest : List Input), s.inputs = .host (.write a d) :: rest ∧
          (a.toNat / 4 = 1 ∧ d.getLsbD 1 = true ∨ a.toNat / 4 = 2 ∧ s.busy = false)) ∨ s.ResetTurn)

/-! ## The invariant -/

/-- The reset state meets the invariant. -/
def Obligations.ResetStateMeetsTheInvariant : Prop := State.reset.Inv

/-- Every step keeps the invariant and the parameter, which State carries by the model's choice (assumption log 1): the
buffer stays in form and inside `MBUF_SIZE` (R68), `BUSY = 1`
exactly when a command is pending (R32), `DONE` is 0 while one is (R308), and `KV = 1` means that `RK` holds the expansion of
the current `KEY` (R24). -/
def Obligations.EveryStepKeepsTheInvariant : Prop :=
  ∀ s t : State, s.Inv → step s = .next t → t.Inv ∧ t.params = s.params

/-! ## Reset and the interrupt output -/

/-- The reset state holds every value of the table of R38, `IRQ = 0`, and each byte of `MBUF` is a draw. That the draw is
number 0, and the model's own fields, are the model's choice (assumption log 2). -/
def Obligations.ResetStateHoldsTheResetValues : Prop :=
  RegistersAtReset State.reset ∧ State.reset.irq = false ∧
    ∀ a, State.reset.mbufByte a = Config.mbufDraw State.reset.mbufEpoch a

/-- Power-on reset, from every state: every component at its reset value with every byte of `MBUF` a fresh draw, `IRQ = 0`,
and the core accepts a command at the first `CMD` write (R340). The model's choice is that the reset is an event of the
environment (assumption log 9) and that the draws are numbered (assumption log 2). -/
def Obligations.PowerOnResetGivesTheResetValues : Prop :=
  ∀ (s : State) (rest : List Input), s.inputs = .powerOn :: rest →
    ∃ t, step s = .next t ∧ RegistersAtReset t ∧ t.irq = false ∧
      (∀ a, t.mbufByte a = Config.mbufDraw (s.mbufEpoch + 1) a) ∧ t.inputs = rest ∧
      ∀ (a : BusAddr) (w : Word), a.toNat / 4 = 2 → (hostWrite a w t).pend = some w

/-- Soft reset, from every state, busy or not: every register at its reset value; the bytes of `MBUF` fresh draws if a message
command is abandoned, unchanged if nothing or another word was pending (R341). That the draws are numbered is the model's
choice (assumption log 2). -/
def Obligations.SoftResetGivesTheResetValues : Prop :=
  ∀ (s : State) (a : BusAddr) (d : Word), a.toNat / 4 = 0 → d.getLsbD 1 = true →
    RegistersAtReset (hostWrite a d s) ∧
      (∀ w i, s.pend = some w → decode w = .ok i → isMessageCommand i = true →
        ∀ b, (hostWrite a d s).mbufByte b = Config.mbufDraw (s.mbufEpoch + 1) b) ∧
      ((s.pend = none ∨ ∃ w, s.pend = some w ∧ ∀ i, decode w = .ok i → isMessageCommand i = false) →
        SameBuffer s (hostWrite a d s))

/-- `CTRL`: `IE` is 0 at reset; it reads `IE` in bit 0 and 0 elsewhere; a write with `SRST = 0` sets `IE` and nothing else, one with `SRST = 1`
performs the soft reset and leaves `IE` 0; at all times (R29). -/
def Obligations.ControlRegisterReadsAndWrites : Prop :=
  ∀ (s : State) (a : BusAddr) (d : Word), a.toNat / 4 = 0 →
    State.reset.ie = false ∧
      (hostRead a s).lastRead = some (if s.ie then 1 else 0) ∧
      (d.getLsbD 1 = false → hostWrite a d s = { s with ie := d.getLsbD 0 }) ∧
      (d.getLsbD 1 = true → hostWrite a d s = s.softReset ∧ (hostWrite a d s).ie = false)

/-- `IRQ = IE AND DONE` at every moment: it is `IE` after every completion of a word, an illegal one too
(R264); a `CTRL` write can raise or drop it; a `STATUS`
write with bit 1 set, an acceptance and either reset drop it; no read changes it (R306, R307). -/
def Obligations.InterruptOutputRisesAndFalls : Prop :=
  ∀ s : State,
    (s.irq = true ↔ s.ie = true ∧ s.done = true) ∧
      (∀ i t, exec i s = .next t → t.irq = s.ie) ∧ (∀ w t, completeWord w s = .next t → t.irq = s.ie) ∧
      (∀ (a : BusAddr) (d : Word), a.toNat / 4 = 0 → d.getLsbD 1 = false →
        (hostWrite a d s).irq = (d.getLsbD 0 && s.done)) ∧
      (∀ (a : BusAddr) (d : Word), a.toNat / 4 = 0 → d.getLsbD 1 = true → (hostWrite a d s).irq = false) ∧
      (∀ (a : BusAddr) (d : Word), a.toNat / 4 = 1 → d.getLsbD 1 = true → (hostWrite a d s).irq = false) ∧
      (∀ (a : BusAddr) (w : Word), a.toNat / 4 = 2 → s.busy = false → (hostWrite a w s).irq = false) ∧
      s.powerOnReset.irq = false ∧
      ∀ a : BusAddr, (hostRead a s).irq = s.irq

/-! ## The host's accesses -/

/-- The address bits `A[1:0]` are ignored: an access at `A` behaves exactly as one at `A - (A mod 4)`, and every access is
answered (R61). -/
def Obligations.LowAddressBitsAreIgnored : Prop :=
  ∀ (s : State) (a : BusAddr) (d : Word),
    let b := BitVec.ofNat 17 (a.toNat - a.toNat % 4)
    hostRead a s = hostRead b s ∧ hostWrite a d s = hostWrite b d s ∧
      ∀ rest x, s.inputs = .host x :: rest → ∃ t, step s = .next t

/-- No host read has a side effect (R67): the only fields it touches are the model's own, the word returned (assumption log 5)
and the count of draws (assumption log 3). -/
def Obligations.ReadsHaveNoSideEffect : Prop :=
  ∀ (s : State) (a : BusAddr), ∃ (v : Word) (n : Nat), hostRead a s = { s with lastRead := some v, readDraws := n } ∧
    (n = s.readDraws ∨ n = s.readDraws + 1)

/-- The fields of `STATUS` as a read returns them at all times, the number of each error code, and what a write clears
(R30, R301). -/
def Obligations.StatusRegisterReadsAndWrites : Prop :=
  ∀ (s : State) (a : BusAddr) (d : Word), a.toNat / 4 = 1 →
    (∃ w : Word, (hostRead a s).lastRead = some w ∧
      w.getLsbD 0 = s.busy ∧ w.getLsbD 1 = s.done ∧ w.getLsbD 2 = s.kv ∧ w.getLsbD 3 = s.ovr ∧
      w.extractLsb' 4 4 = 0 ∧ w.extractLsb' 12 20 = 0 ∧
      (s.errcode = .ok → w.extractLsb' 8 4 = 0) ∧ (s.errcode = .illegal → w.extractLsb' 8 4 = 1) ∧
      (s.errcode = .noKey → w.extractLsb' 8 4 = 2) ∧ (s.errcode = .length → w.extractLsb' 8 4 = 3) ∧
      (s.errcode = .padding → w.extractLsb' 8 4 = 4) ∧ (s.errcode = .overflow → w.extractLsb' 8 4 = 5)) ∧
      hostWrite a d s =
        { s with
          done := if d.getLsbD 1 = true then false else s.done
          ovr := if d.getLsbD 3 = true then false else s.ovr }

/-- While `BUSY = 1` only `CTRL` and `STATUS` accept a write; any other mapped register or the MBUF window drops it and sets
`OVR`; an unmapped or reserved offset drops it and sets nothing (R71). That a window word above `MBUF_SIZE` and `GFR` count
among the former is assumption log 6. -/
def Obligations.BusyWritesAreDroppedAndRecorded : Prop :=
  ∀ (s : State) (a : BusAddr) (d : Word), s.busy = true →
    (2 ≤ a.toNat / 4 ∧ a.toNat / 4 ≤ 12 ∨ 0x4000 ≤ a.toNat / 4 → hostWrite a d s = { s with ovr := true }) ∧
      (13 ≤ a.toNat / 4 ∧ a.toNat / 4 < 0x4000 → hostWrite a d s = s) ∧
      (a.toNat / 4 = 0 → hostWrite a d s = if d.getLsbD 1 = true then s.softReset else { s with ie := d.getLsbD 0 }) ∧
      (a.toNat / 4 = 1 →
        (hostWrite a d s).done = (s.done && !d.getLsbD 1) ∧ (hostWrite a d s).ovr = (s.ovr && !d.getLsbD 3))

/-- While `BUSY = 1` a read of `BLKk` or the MBUF window returns a draw, one of `MLEN` or `GFR` a draw with the reserved bits 0,
and every other read its value by the other rules (R72). Nothing is claimed of the draw (assumption log 3). -/
def Obligations.BusyReadsReturnDraws : Prop :=
  ∀ (s : State) (a : BusAddr), s.busy = true →
    let draw := Config.busyReadDraw s.readDraws
    (8 ≤ a.toNat / 4 ∧ a.toNat / 4 ≤ 11 ∨ 0x4000 ≤ a.toNat / 4 →
      hostRead a s = { s with lastRead := some draw, readDraws := s.readDraws + 1 }) ∧
      (a.toNat / 4 = 3 → ∃ v : Word, (hostRead a s).lastRead = some v ∧ v.toNat = draw.toNat % 65536) ∧
      (a.toNat / 4 = 12 → ∃ v : Word, (hostRead a s).lastRead = some v ∧ v.toNat = draw.toNat % 256) ∧
      (a.toNat / 4 = 0 → hostRead a s = { s with lastRead := some (if s.ie then 1 else 0) }) ∧
      (a.toNat / 4 = 1 → hostRead a s = { s with lastRead := some (statusWord s) }) ∧
      (a.toNat / 4 = 2 ∨ 4 ≤ a.toNat / 4 ∧ a.toNat / 4 ≤ 7 ∨ 13 ≤ a.toNat / 4 ∧ a.toNat / 4 < 0x4000 →
        hostRead a s = { s with lastRead := some 0 })

/-- Reserved and unmapped words, 0x034 to 0x0FFFF: a read returns 0, a write changes nothing, busy or not (R62). -/
def Obligations.ReservedAndUnmappedWordsAreInert : Prop :=
  ∀ (s : State) (a : BusAddr) (d : Word), 0x034 ≤ a.toNat → a.toNat < 0x10000 →
    hostRead a s = { s with lastRead := some 0 } ∧ hostWrite a d s = s

/-- `CMD` and `KEYk` read 0 with no side effect, and no read of any address depends on the key: two states that differ only in
`KEY` and `RK` return the same word (R35). -/
def Obligations.KeyIsNeverReadable : Prop :=
  ∀ (s : State) (a : BusAddr),
    (a.toNat / 4 = 2 ∨ 4 ≤ a.toNat / 4 ∧ a.toNat / 4 ≤ 7 → hostRead a s = { s with lastRead := some 0 }) ∧
      ∀ (k : Block) (rk : RoundKeys), (hostRead a { s with key := k, rk := rk }).lastRead = (hostRead a s).lastRead

/-- Key and block words pack little-endian: a write of `KEYk` or `BLKk` sets the bytes `4k .. 4k+3` to the bytes of the word,
byte 0 the least significant, and a read of `BLKk` returns them; a `KEYk` write also clears `KV`; the example key of R64
(R64, R24). -/
def Obligations.KeyAndBlockWordsPackLittleEndian : Prop :=
  ∀ s : State, s.busy = false →
    (∀ (k : Fin 4) (a : BusAddr) (d : Word), a.toNat / 4 = 4 + k.val →
      (∀ i : Fin 16, blockByte (hostWrite a d s).key i =
        if i.val / 4 = k.val then d.extractLsb' (8 * (i.val % 4)) 8 else blockByte s.key i) ∧
        hostWrite a d s = { s with key := (hostWrite a d s).key, kv := false }) ∧
      (∀ (k : Fin 4) (a : BusAddr) (d : Word), a.toNat / 4 = 8 + k.val →
        (∀ i : Fin 16, blockByte (hostWrite a d s).blk i =
          if i.val / 4 = k.val then d.extractLsb' (8 * (i.val % 4)) 8 else blockByte s.blk i) ∧
          hostWrite a d s = { s with blk := (hostWrite a d s).blk } ∧
          ∃ w : Word, (hostRead a s).lastRead = some w ∧
            ∀ i : Fin 16, i.val / 4 = k.val → w.extractLsb' (8 * (i.val % 4)) 8 = blockByte s.blk i) ∧
      blockBytesOf (hostWrite 0x1C 0x75462067 (hostWrite 0x18 0x6E754B20
          (hostWrite 0x14 0x796D2073 (hostWrite 0x10 0x74616854 s)))).key =
        [0x54, 0x68, 0x61, 0x74, 0x73, 0x20, 0x6D, 0x79, 0x20, 0x4B, 0x75, 0x6E, 0x67, 0x20, 0x46, 0x75]

/-- `MLEN` holds and reads bits 15:0; bits 31:16 read 0 and ignore writes, and any 16-bit value can be written (R26). `GFR`
reads in bits 7:0, bits 31:8 read 0, and writes are ignored (R28). -/
def Obligations.LengthAndProductWords : Prop :=
  ∀ (s : State) (a : BusAddr) (d : Word), s.busy = false →
    (a.toNat / 4 = 3 →
      hostWrite a d s = { s with mlen := (hostWrite a d s).mlen } ∧ (hostWrite a d s).mlen.toNat = d.toNat % 65536 ∧
        ∃ w : Word, (hostRead a s).lastRead = some w ∧ w.toNat = s.mlen.toNat) ∧
      (a.toNat / 4 = 12 →
        hostWrite a d s = s ∧ ∃ w : Word, (hostRead a s).lastRead = some w ∧ w.toNat = s.gfr.toNat)

/-- The MBUF window maps the buffer little-endian: word `k` holds the bytes `4k .. 4k+3` where they are inside the buffer, a
write sets those four and no other, and outside the buffer a read returns 0 and a write changes nothing. A word is wholly
inside or wholly outside (R63). -/
def Obligations.WindowWordsMapTheBufferLittleEndian : Prop :=
  ∀ (s : State) (a : BusAddr) (d : Word) (k : Nat), s.params.Valid → s.mbuf.wf → s.busy = false →
    a.toNat / 4 = 0x4000 + k →
    (4 * k < s.params.mbufSize ↔ 4 * k + 3 < s.params.mbufSize) ∧
      (4 * k + 3 < s.params.mbufSize →
        (∃ w : Word, (hostRead a s).lastRead = some w ∧
          ∀ j : Fin 4, w.extractLsb' (8 * j.val) 8 = s.mbufByte (4 * k + j.val)) ∧
        hostWrite a d s = { s with mbuf := (hostWrite a d s).mbuf } ∧
        (∀ j : Fin 4, (hostWrite a d s).mbufByte (4 * k + j.val) = d.extractLsb' (8 * j.val) 8) ∧
        SameBufferOutside (4 * k) 4 s (hostWrite a d s)) ∧
      (s.params.mbufSize ≤ 4 * k → (hostRead a s).lastRead = some 0 ∧ hostWrite a d s = s)

/-! ## Arithmetic and the cipher's functions -/

/-- The laws of `•` (R134): commutative, associative, distributive over XOR, the small multiples, a unique inverse of every
nonzero byte, and the examples. -/
def Obligations.GaloisMultiplicationLaws : Prop :=
  ∀ a b c : Byte,
    gmul a b = gmul b a ∧ gmul (gmul a b) c = gmul a (gmul b c) ∧ gmul a (b ^^^ c) = gmul a b ^^^ gmul a c ∧
      gmul a 0 = 0 ∧ gmul a 1 = a ∧ gmul a 2 = xtime a ∧ gmul a 3 = xtime a ^^^ a ∧
      (a ≠ 0 → ∃ y, gmul a y = 1 ∧ ∀ z, gmul a z = 1 → z = y) ∧
      gmul 0x57 0x83 = 0xC1 ∧ gmul 0x57 0x13 = 0xFE ∧ gmul 0x80 0x02 = 0x1B ∧ gmul 0xFF 0xFF = 0x13 ∧
      gmul 0x53 0xCA = 0x01

/-- `inv` gives the one inverse of a nonzero byte and `inv(0) = 0` (R135); `affine` is the transform of R136, bit by bit; the
S-box table is the affine transform of the inverse, with no fixed point and no opposite fixed point (R137); and `InvS` is the
inverse permutation (R138). -/
def Obligations.SboxIsTheAffineInverseAndInvSboxUndoesIt : Prop :=
  (gfInv 0 = 0 ∧ gfInv 0x53 = 0xCA ∧ gfInv 0x01 = 0x01 ∧ affine 0x00 = 0x63 ∧ affine 0xCA = 0xED) ∧
    (∀ x y : Byte, x ≠ 0 → (gmul x y = 1 ↔ y = gfInv x)) ∧
    (∀ (y : Byte) (i : Fin 8), (affine y).getLsbD i.val =
      (y.getLsbD i.val ^^ y.getLsbD ((i.val + 4) % 8) ^^ y.getLsbD ((i.val + 5) % 8) ^^ y.getLsbD ((i.val + 6) % 8) ^^
        y.getLsbD ((i.val + 7) % 8) ^^ (0x63 : Byte).getLsbD i.val)) ∧
    ∀ x : Byte,
      sbox x = affine (gfInv x) ∧ sbox x ≠ x ∧ sbox x ≠ x ^^^ 0xFF ∧ invSbox (sbox x) = x ∧ sbox (invSbox x) = x

/-- Each inverse transform undoes its transform, and it it: SubBytes (R140), ShiftRows (R142), MixColumns (R144) and
AddRoundKey (R145). -/
def Obligations.InverseTransformsUndoTheTransforms : Prop :=
  ∀ b k : Block,
    invSubBytes (subBytes b) = b ∧ subBytes (invSubBytes b) = b ∧
      invShiftRows (shiftRows b) = b ∧ shiftRows (invShiftRows b) = b ∧
      invMixColumns (mixColumns b) = b ∧ mixColumns (invMixColumns b) = b ∧
      addRoundKey (addRoundKey b k) k = b

/-- The cipher is a permutation of Blocks under every round-key file: each inverse round undoes its round (R201) and
`DecBlock` and `EncBlock` undo each other (R203). -/
def Obligations.BlockCipherIsInvertible : Prop :=
  ∀ (rk : RoundKeys) (b : Block),
    (∀ r : Fin 11, decRound rk (encRound rk b r) r = b ∧ encRound rk (decRound rk b r) r = b) ∧
      decBlock rk (encBlock rk b) = b ∧ encBlock rk (decBlock rk b) = b

/-- The laws of `pad` and `unpad` for every byte sequence (R113). -/
def Obligations.UnpadUndoesPad : Prop :=
  ∀ m : List Byte,
    ((pad m).length % 16 = 0 ∧ m.length < (pad m).length ∧ (pad m).length ≤ m.length + 16) ∧
      unpad (pad m) = some m ∧
      ∀ m', unpad m = some m' →
        ∃ n, 1 ≤ n ∧ n ≤ 16 ∧ m.getLast? = some (BitVec.ofNat 8 n) ∧ m = m' ++ List.replicate n (BitVec.ofNat 8 n)

/-- The round-trip laws of the two modes, for every message and every key (R238). -/
def Obligations.ModesRoundTrip : Prop :=
  ∀ (key : Block) (m : List Byte),
    ecbDec (expand key) (ecbEnc (expand key) m) = some m ∧ cbcDec (expand key) (cbcEnc (expand key) m) = some m

/-- The round trip on the machine: where the padded message fits, `ECBE` then `ECBD`, and `CBCE` then `CBCD`, restore `MLEN`
and every byte of the message (spec/95_test_vectors.md PR-1). -/
def Obligations.EncryptThenDecryptRestoresTheMessage : Prop :=
  ∀ s : State, s.Inv → s.kv = true → s.mlen.toNat + (16 - s.mlen.toNat % 16) ≤ s.params.mbufSize →
    (∃ t u, exec .ecbe s = .next t ∧ exec .ecbd t = .next u ∧ u.errcode = .ok ∧ u.mlen = s.mlen ∧
      ∀ a, a < s.mlen.toNat → u.mbufByte a = s.mbufByte a) ∧
      ∃ t u, exec .cbce s = .next t ∧ exec .cbcd t = .next u ∧ u.errcode = .ok ∧ u.mlen = s.mlen ∧
        ∀ a, a < s.mlen.toNat → u.mbufByte a = s.mbufByte a

/-- The document's known vector (spec/95_test_vectors.md KV-1): with the key "Thats my Kung Fu" in `KEY` and "Two One Nine Two"
in `BLK`, KEYEXP and ENCB leave the ciphertext in `BLK`, and DECB takes it back. -/
def Obligations.KnownVectorHolds : Prop :=
  ∀ s : State,
    blockBytesOf s.key = [0x54, 0x68, 0x61, 0x74, 0x73, 0x20, 0x6D, 0x79, 0x20, 0x4B, 0x75, 0x6E, 0x67, 0x20, 0x46, 0x75] →
    blockBytesOf s.blk = [0x54, 0x77, 0x6F, 0x20, 0x4F, 0x6E, 0x65, 0x20, 0x4E, 0x69, 0x6E, 0x65, 0x20, 0x54, 0x77, 0x6F] →
    ∃ t u v, exec .keyexp s = .next t ∧ exec .encb t = .next u ∧ exec .decb u = .next v ∧
      blockBytesOf u.blk =
        [0x29, 0xC3, 0x50, 0x5F, 0x57, 0x14, 0x20, 0xF6, 0x40, 0x22, 0x99, 0xB3, 0x1A, 0x02, 0xD7, 0x3A] ∧
      v.blk = s.blk

/-! ## The commands: where each completes, with what result, and what it leaves unchanged -/

/-- NOP commits with no writes, from every state (R263). -/
def Obligations.NopWritesNothing : Prop :=
  ∀ s : State, ∃ t, exec .nop s = .next t ∧ SameData s t ∧ SameControl s t ∧ t.CompletedWith .ok

/-- KEYEXP completes from every state, sets `KV`, and leaves in `RK` the expansion of `KEY`: `RK[0]` is the key, and each
later round key follows the recurrence word by word (R180). -/
def Obligations.KeyexpExpandsTheKey : Prop :=
  ∀ s : State, ∃ t, exec .keyexp s = .next t ∧ t.kv = true ∧ t.rk[0] = s.key ∧
    (∀ (r : Nat) (h : r < 10),
      let p := t.rk[r]
      let n := t.rk[r + 1]
      let rc : Byte := [0x01, 0x02, 0x04, 0x08, 0x10, 0x20, 0x40, 0x80, 0x1B, 0x36].getD r 0
      n.c0 = colXor p.c0 ⟨sbox p.c3.b1 ^^^ rc, sbox p.c3.b2, sbox p.c3.b3, sbox p.c3.b0⟩ ∧
        n.c1 = colXor p.c1 n.c0 ∧ n.c2 = colXor p.c2 n.c1 ∧ n.c3 = colXor p.c3 n.c2) ∧
    OnlyRoundKeysChange s t ∧ t.CompletedWith .ok

/-- SUBB and ISUBB complete from every state, with or without a key, and put each byte of `BLK` through `S` or `InvS`
(R139, R140, R146, R147). -/
def Obligations.SubbAndIsubbSubstituteEveryByte : Prop :=
  ∀ s : State,
    (∃ t, exec .subb s = .next t ∧ (∀ i, blockByte t.blk i = sbox (blockByte s.blk i)) ∧ OnlyBlkChanges s t ∧
      t.CompletedWith .ok) ∧
      ∃ t, exec .isubb s = .next t ∧ (∀ i, blockByte t.blk i = invSbox (blockByte s.blk i)) ∧ OnlyBlkChanges s t ∧
        t.CompletedWith .ok

/-- SHROW and ISHROW complete from every state and permute the bytes of `BLK` as R141 and R142 list (R148, R149). -/
def Obligations.ShrowAndIshrowPermuteTheBytes : Prop :=
  ∀ s : State,
    let b := blockByte s.blk
    (∃ t, exec .shrow s = .next t ∧
      blockBytesOf t.blk =
        [b 0, b 5, b 10, b 15, b 4, b 9, b 14, b 3, b 8, b 13, b 2, b 7, b 12, b 1, b 6, b 11] ∧
      OnlyBlkChanges s t ∧ t.CompletedWith .ok) ∧
      ∃ t, exec .ishrow s = .next t ∧
        blockBytesOf t.blk =
          [b 0, b 13, b 10, b 7, b 4, b 1, b 14, b 11, b 8, b 5, b 2, b 15, b 12, b 9, b 6, b 3] ∧
        OnlyBlkChanges s t ∧ t.CompletedWith .ok

/-- MIXCOL and IMIXCOL complete from every state and multiply each column of `BLK` by the matrices written out in R143 and
R144 (R150, R151). -/
def Obligations.MixcolAndImixcolMultiplyEveryColumn : Prop :=
  ∀ s : State,
    (∃ t, exec .mixcol s = .next t ∧
      (∀ c : Fin 4, ∀ a0 a1 a2 a3 : Byte, blockCol s.blk c = ⟨a0, a1, a2, a3⟩ →
        blockCol t.blk c =
          ⟨gmul 2 a0 ^^^ gmul 3 a1 ^^^ a2 ^^^ a3, a0 ^^^ gmul 2 a1 ^^^ gmul 3 a2 ^^^ a3,
            a0 ^^^ a1 ^^^ gmul 2 a2 ^^^ gmul 3 a3, gmul 3 a0 ^^^ a1 ^^^ a2 ^^^ gmul 2 a3⟩) ∧
      OnlyBlkChanges s t ∧ t.CompletedWith .ok) ∧
      ∃ t, exec .imixcol s = .next t ∧
        (∀ c : Fin 4, ∀ a0 a1 a2 a3 : Byte, blockCol s.blk c = ⟨a0, a1, a2, a3⟩ →
          blockCol t.blk c =
            ⟨gmul 0x0E a0 ^^^ gmul 0x0B a1 ^^^ gmul 0x0D a2 ^^^ gmul 0x09 a3,
              gmul 0x09 a0 ^^^ gmul 0x0E a1 ^^^ gmul 0x0B a2 ^^^ gmul 0x0D a3,
              gmul 0x0D a0 ^^^ gmul 0x09 a1 ^^^ gmul 0x0E a2 ^^^ gmul 0x0B a3,
              gmul 0x0B a0 ^^^ gmul 0x0D a1 ^^^ gmul 0x09 a2 ^^^ gmul 0x0E a3⟩) ∧
        OnlyBlkChanges s t ∧ t.CompletedWith .ok

/-- GFMUL completes from every state, for every pair of bytes, and leaves their product in `GFR` (R153): the XOR, over the set
bits `k` of `b`, of `a` multiplied `k` times by `x` (R131, R132). -/
def Obligations.GfmulLeavesTheProduct : Prop :=
  ∀ (s : State) (a b : Byte), ∃ t, exec (.gfmul a b) s = .next t ∧
    t.gfr = (List.range 8).foldl (fun p k => if b.getLsbD k = true then p ^^^ xtime^[k] a else p) 0 ∧
    OnlyGfrChanges s t ∧ t.CompletedWith .ok

/-- ARK r completes for every round index 0..10 while `KV = 1`, and XORs `RK[r]` into `BLK` byte by byte (R152). -/
def Obligations.ArkAddsTheRoundKey : Prop :=
  ∀ (s : State) (r : BitVec 4) (h : r.toNat < 11), s.kv = true →
    ∃ t, exec (.ark r) s = .next t ∧
      (∀ i, blockByte t.blk i = blockByte s.blk i ^^^ blockByte (s.rk[r.toNat]'h) i) ∧ OnlyBlkChanges s t ∧
      t.CompletedWith .ok

/-- ROUND r and IROUND r complete for every round index 0..10 while `KV = 1`, with the round of R200 and the inverse round of
R201: round 0 only adds the round key, round 10 has no column mixing (R204, R205). -/
def Obligations.RoundAndIroundRunOneRound : Prop :=
  ∀ (s : State) (r : BitVec 4) (h : r.toNat < 11), s.kv = true →
    let k := s.rk[r.toNat]'h
    (∃ t, exec (.round r) s = .next t ∧
      (r.toNat = 0 → t.blk = addRoundKey s.blk k) ∧
      (1 ≤ r.toNat ∧ r.toNat ≤ 9 → t.blk = addRoundKey (mixColumns (shiftRows (subBytes s.blk))) k) ∧
      (r.toNat = 10 → t.blk = addRoundKey (shiftRows (subBytes s.blk)) k) ∧ OnlyBlkChanges s t ∧ t.CompletedWith .ok) ∧
      ∃ t, exec (.iround r) s = .next t ∧
        (r.toNat = 0 → t.blk = addRoundKey s.blk k) ∧
        (1 ≤ r.toNat ∧ r.toNat ≤ 9 → t.blk = invSubBytes (invShiftRows (invMixColumns (addRoundKey s.blk k)))) ∧
        (r.toNat = 10 → t.blk = invSubBytes (invShiftRows (addRoundKey s.blk k))) ∧ OnlyBlkChanges s t ∧
        t.CompletedWith .ok

/-- ENCB completes while `KV = 1` and runs the rounds in order 0, 1, ..., 10 (R202, R206); DECB runs the inverse rounds in order
10, 9, ..., 0 (R203, R207). -/
def Obligations.EncbAndDecbRunAllRounds : Prop :=
  ∀ s : State, s.kv = true →
    (∃ (t : State) (x : Nat → Block), exec .encb s = .next t ∧ x 0 = s.blk ∧
      (∀ r : Fin 11, x (r.val + 1) = encRound s.rk (x r.val) r) ∧ t.blk = x 11 ∧ OnlyBlkChanges s t ∧
      t.CompletedWith .ok) ∧
      ∃ (t : State) (x : Nat → Block), exec .decb s = .next t ∧ x 11 = s.blk ∧
        (∀ r : Fin 11, x r.val = decRound s.rk (x (r.val + 1)) r) ∧ t.blk = x 0 ∧ OnlyBlkChanges s t ∧
        t.CompletedWith .ok

/-- Every command that reads `RK` reports `NOKEY` while `KV = 0` and writes no data, a message command if its length passes the
size check that comes first (R24, R303). -/
def Obligations.KeyedCommandsNeedAValidKey : Prop :=
  ∀ (i : Instr) (s : State), i.wf = true → readsRoundKeys i = true → s.kv = false →
    (isMessageCommand i = true → s.mlen.toNat ≤ s.params.mbufSize) →
    exec i s = .next { s with errcode := .noKey, busy := false, done := true, pend := none }

/-- PAD completes where the padded message fits: it writes `n` bytes of value `n` from the old `MLEN` on, adds `n` to `MLEN`,
and needs no key (R111, R114). -/
def Obligations.PadWritesThePadding : Prop :=
  ∀ s : State, s.params.Valid → s.mbuf.wf →
    let n := 16 - s.mlen.toNat % 16
    s.mlen.toNat + n ≤ s.params.mbufSize →
    ∃ t, exec .pad s = .next t ∧ t.mlen.toNat = s.mlen.toNat + n ∧
      (∀ a, s.mlen.toNat ≤ a → a < s.mlen.toNat + n → t.mbufByte a = BitVec.ofNat 8 n) ∧
      OnlyMessageChanges s.mlen.toNat n s t ∧ t.CompletedWith .ok

/-- UNPAD completes where the last byte of the message is a count `n` of 1 to 16, at most `MLEN`, and the last `n` bytes all
equal it: `MLEN` drops by `n` and no byte of the buffer changes. Otherwise, the empty message among it, it reports `PADDING`
and changes no data (R112, R115). -/
def Obligations.UnpadValidatesAndShortens : Prop :=
  ∀ s : State, s.mlen.toNat ≤ s.params.mbufSize →
    let n := (s.mbufByte (s.mlen.toNat - 1)).toNat
    let good := 0 < s.mlen.toNat ∧ 1 ≤ n ∧ n ≤ 16 ∧ n ≤ s.mlen.toNat ∧
      ∀ a, s.mlen.toNat - n ≤ a → a < s.mlen.toNat → (s.mbufByte a).toNat = n
    (good → ∃ t, exec .unpad s = .next t ∧ t.mlen.toNat = s.mlen.toNat - n ∧ OnlyMessageChanges 0 0 s t ∧
      t.CompletedWith .ok) ∧
      (¬good → exec .unpad s = .next { s with errcode := .padding, busy := false, done := true, pend := none })

/-- ECBE and CBCE complete while `KV = 1` where the padded message fits: `MLEN` becomes the padded length `L`, the bytes
`0 .. L - 1` become the ciphertext Block by Block, and nothing else changes. An ECB Block is the encryption of its plaintext
Block (R230, R234); a CBC Block is that of the plaintext Block XORed with the ciphertext Block before it, or with zero (R232,
R236). -/
def Obligations.EcbeAndCbceEncryptTheMessage : Prop :=
  ∀ s : State, s.params.Valid → s.mbuf.wf → s.kv = true →
    let L := s.mlen.toNat + (16 - s.mlen.toNat % 16)
    let plain := fun i => blockOfBytes ((pad s.message).drop (16 * i))
    L ≤ s.params.mbufSize →
    (∃ t, exec .ecbe s = .next t ∧ t.mlen.toNat = L ∧
      (∀ i, i < L / 16 → blockOfBytes (t.memRead (16 * i) 16) = encBlock s.rk (plain i)) ∧
      OnlyMessageChanges 0 L s t ∧ t.CompletedWith .ok) ∧
      ∃ t, exec .cbce s = .next t ∧ t.mlen.toNat = L ∧
        (∀ i, i < L / 16 → blockOfBytes (t.memRead (16 * i) 16) =
          encBlock s.rk (xor16 (plain i)
            (if i = 0 then Block.zero else blockOfBytes (t.memRead (16 * (i - 1)) 16)))) ∧
        OnlyMessageChanges 0 L s t ∧ t.CompletedWith .ok

/-- ECBD completes while `KV = 1` on a message of whole Blocks inside the buffer whose decryption unpads: the bytes
`0 .. MLEN - 1` become the decrypted Blocks, padding included, `MLEN` the unpadded length, and nothing else changes
(R231, R235). -/
def Obligations.EcbdDecryptsTheMessage : Prop :=
  ∀ (s : State) (m : List Byte), s.mbuf.wf → s.kv = true → s.mlen.toNat ≤ s.params.mbufSize →
    s.mlen.toNat % 16 = 0 → ecbDec s.rk s.message = some m →
    ∃ t, exec .ecbd s = .next t ∧ t.mlen.toNat = m.length ∧ t.message = m ∧
      (∀ i, i < s.mlen.toNat / 16 →
        blockOfBytes (t.memRead (16 * i) 16) = decBlock s.rk (blockOfBytes (s.memRead (16 * i) 16))) ∧
      OnlyMessageChanges 0 s.mlen.toNat s t ∧ t.CompletedWith .ok

/-- CBCD, likewise: each decrypted Block is XORed with the ciphertext Block before it as it stood in the input, "captured
before decryption", or with zero (R233, R237, R346). -/
def Obligations.CbcdDecryptsTheMessage : Prop :=
  ∀ (s : State) (m : List Byte), s.mbuf.wf → s.kv = true → s.mlen.toNat ≤ s.params.mbufSize →
    s.mlen.toNat % 16 = 0 → cbcDec s.rk s.message = some m →
    ∃ t, exec .cbcd s = .next t ∧ t.mlen.toNat = m.length ∧ t.message = m ∧
      (∀ i, i < s.mlen.toNat / 16 →
        blockOfBytes (t.memRead (16 * i) 16) =
          xor16 (decBlock s.rk (blockOfBytes (s.memRead (16 * i) 16)))
            (if i = 0 then Block.zero else blockOfBytes (s.memRead (16 * (i - 1)) 16))) ∧
      OnlyMessageChanges 0 s.mlen.toNat s t ∧ t.CompletedWith .ok
end

