-- ==== Sys2Proof/Laws/State.lean ====
section
/-! SUPPORT. What each named update of State does to each field: one lemma per field per update, true by unfolding. -/

namespace Sys2Proof.Machine

/-! ## Completion of a command -/

@[simp] theorem complete_key (s : State) (c : ErrCode) : (s.complete c).key = s.key := rfl
@[simp] theorem complete_rk (s : State) (c : ErrCode) : (s.complete c).rk = s.rk := rfl
@[simp] theorem complete_kv (s : State) (c : ErrCode) : (s.complete c).kv = s.kv := rfl
@[simp] theorem complete_blk (s : State) (c : ErrCode) : (s.complete c).blk = s.blk := rfl
@[simp] theorem complete_mlen (s : State) (c : ErrCode) : (s.complete c).mlen = s.mlen := rfl
@[simp] theorem complete_mbuf (s : State) (c : ErrCode) : (s.complete c).mbuf = s.mbuf := rfl
@[simp] theorem complete_gfr (s : State) (c : ErrCode) : (s.complete c).gfr = s.gfr := rfl
@[simp] theorem complete_ie (s : State) (c : ErrCode) : (s.complete c).ie = s.ie := rfl
@[simp] theorem complete_busy (s : State) (c : ErrCode) : (s.complete c).busy = false := rfl
@[simp] theorem complete_done (s : State) (c : ErrCode) : (s.complete c).done = true := rfl
@[simp] theorem complete_ovr (s : State) (c : ErrCode) : (s.complete c).ovr = s.ovr := rfl
@[simp] theorem complete_errcode (s : State) (c : ErrCode) : (s.complete c).errcode = c := rfl
@[simp] theorem complete_pend (s : State) (c : ErrCode) : (s.complete c).pend = none := rfl
@[simp] theorem complete_params (s : State) (c : ErrCode) : (s.complete c).params = s.params := rfl
@[simp] theorem complete_mbufEpoch (s : State) (c : ErrCode) : (s.complete c).mbufEpoch = s.mbufEpoch := rfl
@[simp] theorem complete_readDraws (s : State) (c : ErrCode) : (s.complete c).readDraws = s.readDraws := rfl
@[simp] theorem complete_lastRead (s : State) (c : ErrCode) : (s.complete c).lastRead = s.lastRead := rfl
@[simp] theorem complete_inputs (s : State) (c : ErrCode) : (s.complete c).inputs = s.inputs := rfl

/-! ## Writing the buffer -/

@[simp] theorem memWrite_key (s : State) (i : Nat) (v : List Byte) : (s.memWrite i v).key = s.key := rfl
@[simp] theorem memWrite_rk (s : State) (i : Nat) (v : List Byte) : (s.memWrite i v).rk = s.rk := rfl
@[simp] theorem memWrite_kv (s : State) (i : Nat) (v : List Byte) : (s.memWrite i v).kv = s.kv := rfl
@[simp] theorem memWrite_blk (s : State) (i : Nat) (v : List Byte) : (s.memWrite i v).blk = s.blk := rfl
@[simp] theorem memWrite_mlen (s : State) (i : Nat) (v : List Byte) : (s.memWrite i v).mlen = s.mlen := rfl
@[simp] theorem memWrite_mbuf (s : State) (i : Nat) (v : List Byte) : (s.memWrite i v).mbuf = Memory.setBytes s.mbuf i v := rfl
@[simp] theorem memWrite_gfr (s : State) (i : Nat) (v : List Byte) : (s.memWrite i v).gfr = s.gfr := rfl
@[simp] theorem memWrite_ie (s : State) (i : Nat) (v : List Byte) : (s.memWrite i v).ie = s.ie := rfl
@[simp] theorem memWrite_busy (s : State) (i : Nat) (v : List Byte) : (s.memWrite i v).busy = s.busy := rfl
@[simp] theorem memWrite_done (s : State) (i : Nat) (v : List Byte) : (s.memWrite i v).done = s.done := rfl
@[simp] theorem memWrite_ovr (s : State) (i : Nat) (v : List Byte) : (s.memWrite i v).ovr = s.ovr := rfl
@[simp] theorem memWrite_errcode (s : State) (i : Nat) (v : List Byte) : (s.memWrite i v).errcode = s.errcode := rfl
@[simp] theorem memWrite_pend (s : State) (i : Nat) (v : List Byte) : (s.memWrite i v).pend = s.pend := rfl
@[simp] theorem memWrite_params (s : State) (i : Nat) (v : List Byte) : (s.memWrite i v).params = s.params := rfl
@[simp] theorem memWrite_mbufEpoch (s : State) (i : Nat) (v : List Byte) : (s.memWrite i v).mbufEpoch = s.mbufEpoch := rfl
@[simp] theorem memWrite_readDraws (s : State) (i : Nat) (v : List Byte) : (s.memWrite i v).readDraws = s.readDraws := rfl
@[simp] theorem memWrite_lastRead (s : State) (i : Nat) (v : List Byte) : (s.memWrite i v).lastRead = s.lastRead := rfl
@[simp] theorem memWrite_inputs (s : State) (i : Nat) (v : List Byte) : (s.memWrite i v).inputs = s.inputs := rfl

/-! ## Setting the length -/

@[simp] theorem setMlen_key (s : State) (n : Nat) : (s.setMlen n).key = s.key := rfl
@[simp] theorem setMlen_rk (s : State) (n : Nat) : (s.setMlen n).rk = s.rk := rfl
@[simp] theorem setMlen_kv (s : State) (n : Nat) : (s.setMlen n).kv = s.kv := rfl
@[simp] theorem setMlen_blk (s : State) (n : Nat) : (s.setMlen n).blk = s.blk := rfl
@[simp] theorem setMlen_mlen (s : State) (n : Nat) : (s.setMlen n).mlen = BitVec.ofNat 16 n := rfl
@[simp] theorem setMlen_mbuf (s : State) (n : Nat) : (s.setMlen n).mbuf = s.mbuf := rfl
@[simp] theorem setMlen_gfr (s : State) (n : Nat) : (s.setMlen n).gfr = s.gfr := rfl
@[simp] theorem setMlen_ie (s : State) (n : Nat) : (s.setMlen n).ie = s.ie := rfl
@[simp] theorem setMlen_busy (s : State) (n : Nat) : (s.setMlen n).busy = s.busy := rfl
@[simp] theorem setMlen_done (s : State) (n : Nat) : (s.setMlen n).done = s.done := rfl
@[simp] theorem setMlen_ovr (s : State) (n : Nat) : (s.setMlen n).ovr = s.ovr := rfl
@[simp] theorem setMlen_errcode (s : State) (n : Nat) : (s.setMlen n).errcode = s.errcode := rfl
@[simp] theorem setMlen_pend (s : State) (n : Nat) : (s.setMlen n).pend = s.pend := rfl
@[simp] theorem setMlen_params (s : State) (n : Nat) : (s.setMlen n).params = s.params := rfl
@[simp] theorem setMlen_mbufEpoch (s : State) (n : Nat) : (s.setMlen n).mbufEpoch = s.mbufEpoch := rfl
@[simp] theorem setMlen_readDraws (s : State) (n : Nat) : (s.setMlen n).readDraws = s.readDraws := rfl
@[simp] theorem setMlen_lastRead (s : State) (n : Nat) : (s.setMlen n).lastRead = s.lastRead := rfl
@[simp] theorem setMlen_inputs (s : State) (n : Nat) : (s.setMlen n).inputs = s.inputs := rfl

/-! ## The registers' reset -/

@[simp] theorem resetRegisters_key (s : State) : (s.resetRegisters).key = State.reset.key := rfl
@[simp] theorem resetRegisters_rk (s : State) : (s.resetRegisters).rk = State.reset.rk := rfl
@[simp] theorem resetRegisters_kv (s : State) : (s.resetRegisters).kv = State.reset.kv := rfl
@[simp] theorem resetRegisters_blk (s : State) : (s.resetRegisters).blk = State.reset.blk := rfl
@[simp] theorem resetRegisters_mlen (s : State) : (s.resetRegisters).mlen = State.reset.mlen := rfl
@[simp] theorem resetRegisters_mbuf (s : State) : (s.resetRegisters).mbuf = s.mbuf := rfl
@[simp] theorem resetRegisters_gfr (s : State) : (s.resetRegisters).gfr = State.reset.gfr := rfl
@[simp] theorem resetRegisters_ie (s : State) : (s.resetRegisters).ie = State.reset.ie := rfl
@[simp] theorem resetRegisters_busy (s : State) : (s.resetRegisters).busy = State.reset.busy := rfl
@[simp] theorem resetRegisters_done (s : State) : (s.resetRegisters).done = State.reset.done := rfl
@[simp] theorem resetRegisters_ovr (s : State) : (s.resetRegisters).ovr = State.reset.ovr := rfl
@[simp] theorem resetRegisters_errcode (s : State) : (s.resetRegisters).errcode = State.reset.errcode := rfl
@[simp] theorem resetRegisters_pend (s : State) : (s.resetRegisters).pend = State.reset.pend := rfl
@[simp] theorem resetRegisters_params (s : State) : (s.resetRegisters).params = s.params := rfl
@[simp] theorem resetRegisters_mbufEpoch (s : State) : (s.resetRegisters).mbufEpoch = s.mbufEpoch := rfl
@[simp] theorem resetRegisters_readDraws (s : State) : (s.resetRegisters).readDraws = s.readDraws := rfl
@[simp] theorem resetRegisters_lastRead (s : State) : (s.resetRegisters).lastRead = s.lastRead := rfl
@[simp] theorem resetRegisters_inputs (s : State) : (s.resetRegisters).inputs = s.inputs := rfl

/-! ## Fresh draws for the buffer -/

@[simp] theorem drawMbuf_key (s : State) : (s.drawMbuf).key = s.key := rfl
@[simp] theorem drawMbuf_rk (s : State) : (s.drawMbuf).rk = s.rk := rfl
@[simp] theorem drawMbuf_kv (s : State) : (s.drawMbuf).kv = s.kv := rfl
@[simp] theorem drawMbuf_blk (s : State) : (s.drawMbuf).blk = s.blk := rfl
@[simp] theorem drawMbuf_mlen (s : State) : (s.drawMbuf).mlen = s.mlen := rfl
@[simp] theorem drawMbuf_mbuf (s : State) : (s.drawMbuf).mbuf = [] := rfl
@[simp] theorem drawMbuf_gfr (s : State) : (s.drawMbuf).gfr = s.gfr := rfl
@[simp] theorem drawMbuf_ie (s : State) : (s.drawMbuf).ie = s.ie := rfl
@[simp] theorem drawMbuf_busy (s : State) : (s.drawMbuf).busy = s.busy := rfl
@[simp] theorem drawMbuf_done (s : State) : (s.drawMbuf).done = s.done := rfl
@[simp] theorem drawMbuf_ovr (s : State) : (s.drawMbuf).ovr = s.ovr := rfl
@[simp] theorem drawMbuf_errcode (s : State) : (s.drawMbuf).errcode = s.errcode := rfl
@[simp] theorem drawMbuf_pend (s : State) : (s.drawMbuf).pend = s.pend := rfl
@[simp] theorem drawMbuf_params (s : State) : (s.drawMbuf).params = s.params := rfl
@[simp] theorem drawMbuf_mbufEpoch (s : State) : (s.drawMbuf).mbufEpoch = s.mbufEpoch + 1 := rfl
@[simp] theorem drawMbuf_readDraws (s : State) : (s.drawMbuf).readDraws = s.readDraws := rfl
@[simp] theorem drawMbuf_lastRead (s : State) : (s.drawMbuf).lastRead = s.lastRead := rfl
@[simp] theorem drawMbuf_inputs (s : State) : (s.drawMbuf).inputs = s.inputs := rfl

/-! ## Acceptance of a command word -/

@[simp] theorem acceptCommand_key (s : State) (w : Word) : (acceptCommand w s).key = s.key := rfl
@[simp] theorem acceptCommand_rk (s : State) (w : Word) : (acceptCommand w s).rk = s.rk := rfl
@[simp] theorem acceptCommand_kv (s : State) (w : Word) : (acceptCommand w s).kv = s.kv := rfl
@[simp] theorem acceptCommand_blk (s : State) (w : Word) : (acceptCommand w s).blk = s.blk := rfl
@[simp] theorem acceptCommand_mlen (s : State) (w : Word) : (acceptCommand w s).mlen = s.mlen := rfl
@[simp] theorem acceptCommand_mbuf (s : State) (w : Word) : (acceptCommand w s).mbuf = s.mbuf := rfl
@[simp] theorem acceptCommand_gfr (s : State) (w : Word) : (acceptCommand w s).gfr = s.gfr := rfl
@[simp] theorem acceptCommand_ie (s : State) (w : Word) : (acceptCommand w s).ie = s.ie := rfl
@[simp] theorem acceptCommand_busy (s : State) (w : Word) : (acceptCommand w s).busy = true := rfl
@[simp] theorem acceptCommand_done (s : State) (w : Word) : (acceptCommand w s).done = false := rfl
@[simp] theorem acceptCommand_ovr (s : State) (w : Word) : (acceptCommand w s).ovr = s.ovr := rfl
@[simp] theorem acceptCommand_errcode (s : State) (w : Word) : (acceptCommand w s).errcode = s.errcode := rfl
@[simp] theorem acceptCommand_pend (s : State) (w : Word) : (acceptCommand w s).pend = some w := rfl
@[simp] theorem acceptCommand_params (s : State) (w : Word) : (acceptCommand w s).params = s.params := rfl
@[simp] theorem acceptCommand_mbufEpoch (s : State) (w : Word) : (acceptCommand w s).mbufEpoch = s.mbufEpoch := rfl
@[simp] theorem acceptCommand_readDraws (s : State) (w : Word) : (acceptCommand w s).readDraws = s.readDraws := rfl
@[simp] theorem acceptCommand_lastRead (s : State) (w : Word) : (acceptCommand w s).lastRead = s.lastRead := rfl
@[simp] theorem acceptCommand_inputs (s : State) (w : Word) : (acceptCommand w s).inputs = s.inputs := rfl

end Sys2Proof.Machine
end

