-- ==== Sys2Proof/Laws/Memory.lean ====
section
/-! SUPPORT. The laws of the message buffer: read after write, what a write leaves alone, and that every buffer operation keeps
the canonical form. -/

namespace Sys2Proof.Machine

/-! ## One byte -/

theorem Memory.lookup_set (m : Memory) (hm : m.wf) (a b : Nat) (v : Byte) :
    Memory.lookup (Memory.set m a v) b = if b = a then some v else Memory.lookup m b := by
  induction m with
  | nil => simp [Memory.set, Memory.lookup]
  | cons x m ih =>
    obtain ⟨c, u⟩ := x
    have hm' : Memory.wf m := (List.pairwise_cons.mp hm).2
    simp only [Memory.set]
    split
    · simp [Memory.lookup]
    · split
      · rename_i h; subst h; by_cases hb : b = a <;> simp [Memory.lookup, hb]
      · simp only [Memory.lookup, ih hm']
        split
        · rw [if_neg (by omega)]
        · rfl

/-- A set lists no index that was not listed before, but the one it sets. -/
theorem Memory.mem_set (m : Memory) (a : Nat) (v : Byte) :
    ∀ x ∈ Memory.set m a v, x = (a, v) ∨ x ∈ m := by
  induction m with
  | nil => simp [Memory.set]
  | cons y m ih =>
    obtain ⟨c, u⟩ := y
    intro x hx
    simp only [Memory.set] at hx
    split at hx
    · simpa using hx
    · split at hx
      · simp only [List.mem_cons] at hx ⊢; tauto
      · simp only [List.mem_cons] at hx ⊢
        rcases hx with hx | hx
        · tauto
        · have := ih x hx; tauto

theorem Memory.wf_set (m : Memory) (hm : m.wf) (a : Nat) (v : Byte) : (Memory.set m a v).wf := by
  induction m with
  | nil => simp [Memory.set, Memory.wf]
  | cons y m ih =>
    obtain ⟨c, u⟩ := y
    obtain ⟨h1, h2⟩ := List.pairwise_cons.mp hm
    simp only [Memory.set]
    split
    · refine List.pairwise_cons.mpr ⟨fun x hx => ?_, hm⟩
      rcases List.mem_cons.mp hx with rfl | hx
      · assumption
      · exact lt_trans ‹_› (h1 x hx)
    · split
      · subst_vars; exact List.pairwise_cons.mpr ⟨h1, h2⟩
      · refine List.pairwise_cons.mpr ⟨fun x hx => ?_, ih h2⟩
        rcases Memory.mem_set m a v x hx with rfl | hx
        · show c < a; omega
        · exact h1 x hx

/-! ## Consecutive bytes -/

theorem Memory.wf_setBytes (v : List Byte) (m : Memory) (hm : m.wf) (a : Nat) : (Memory.setBytes m a v).wf := by
  induction v generalizing m a with
  | nil => exact hm
  | cons x v ih => exact ih _ (Memory.wf_set m hm a x) _

theorem Memory.mem_setBytes (v : List Byte) (m : Memory) (a : Nat) :
    ∀ x ∈ Memory.setBytes m a v, x ∈ m ∨ a ≤ x.1 ∧ x.1 < a + v.length := by
  induction v generalizing m a with
  | nil => intro x hx; exact Or.inl hx
  | cons y v ih =>
    intro x hx
    rcases ih _ _ x hx with h | ⟨h1, h2⟩
    · rcases Memory.mem_set m a y x h with rfl | h
      · exact Or.inr ⟨le_refl _, by simp⟩
      · exact Or.inl h
    · exact Or.inr ⟨by omega, by simp only [List.length_cons]; omega⟩

theorem Memory.lookup_setBytes (v : List Byte) (m : Memory) (hm : m.wf) (a b : Nat) :
    Memory.lookup (Memory.setBytes m a v) b =
      if a ≤ b ∧ b < a + v.length then some (v.getD (b - a) 0) else Memory.lookup m b := by
  induction v generalizing m a with
  | nil => simp only [Memory.setBytes, List.length_nil]; rw [if_neg (by omega)]
  | cons x v ih =>
    simp only [Memory.setBytes, ih _ (Memory.wf_set m hm a x), Memory.lookup_set m hm, List.length_cons]
    by_cases hb : b = a
    · subst hb; rw [if_neg (by omega), if_pos (by omega)]; simp
    · by_cases h : a + 1 ≤ b ∧ b < a + 1 + v.length
      · rw [if_pos h, if_pos (by omega)]
        obtain ⟨k, hk⟩ : ∃ k, b - a = k + 1 := ⟨b - a - 1, by omega⟩
        rw [hk, show b - (a + 1) = k by omega]; simp
      · rw [if_neg h, if_neg hb, if_neg (by omega)]

/-! ## The machine's reads and writes -/

/-- Reading one byte after `MemWrite`: the byte written where one was, else the byte that was there. -/
theorem mbufByte_memWrite (s : State) (hs : s.mbuf.wf) (i : Nat) (v : List Byte) (b : Nat) :
    (s.memWrite i v).mbufByte b = if i ≤ b ∧ b < i + v.length then v.getD (b - i) 0 else s.mbufByte b := by
  simp only [State.mbufByte, State.memWrite, Memory.lookup_setBytes v s.mbuf hs]
  by_cases h : i ≤ b ∧ b < i + v.length
  · rw [if_pos h, if_pos h]
  · rw [if_neg h, if_neg h]

/-- `MemWrite` inside the buffer keeps the buffer in form. -/
theorem mbufOk_memWrite (s : State) (i : Nat) (v : List Byte) (hs : s.mbuf.wf ∧ ∀ x ∈ s.mbuf, x.1 < s.params.mbufSize)
    (hv : i + v.length ≤ s.params.mbufSize) :
    (Memory.setBytes s.mbuf i v).wf ∧ ∀ x ∈ Memory.setBytes s.mbuf i v, x.1 < s.params.mbufSize := by
  refine ⟨Memory.wf_setBytes v s.mbuf hs.1 i, fun x hx => ?_⟩
  rcases Memory.mem_setBytes v s.mbuf i x hx with h | ⟨-, h⟩
  · exact hs.2 x h
  · omega

@[simp] theorem memRead_length (s : State) (i n : Nat) : (s.memRead i n).length = n := by simp [State.memRead]

theorem memRead_getD (s : State) (i n k : Nat) (hk : k < n) : (s.memRead i n).getD k 0 = s.mbufByte (i + k) := by
  simp [State.memRead, hk]

@[simp] theorem mbufByte_complete (s : State) (c : ErrCode) (b : Nat) : (s.complete c).mbufByte b = s.mbufByte b := rfl

@[simp] theorem mbufByte_setMlen (s : State) (n b : Nat) : (s.setMlen n).mbufByte b = s.mbufByte b := rfl

@[simp] theorem message_length (s : State) : s.message.length = s.mlen.toNat := by simp [State.message]

/-- Reading back the bytes that were just written from index 0 on. -/
theorem memRead_memWrite (s : State) (hs : s.mbuf.wf) (v : List Byte) : (s.memWrite 0 v).memRead 0 v.length = v := by
  apply List.ext_getElem (by simp)
  intro i h1 h2
  simp only [State.memRead, List.getElem_map, List.getElem_range', Nat.zero_add, Nat.one_mul]
  rw [mbufByte_memWrite s hs, if_pos (by omega)]
  simp [h2]

end Sys2Proof.Machine
end

