-- ==== Sys2Proof/Laws/Bus.lean ====
section
/-! SUPPORT. The laws of the host's bus: what each word address names, what a read answers, and how bytes sit in a bus word. -/

namespace Sys2Proof.Machine

/-! ## What an address names -/

theorem target_ctrl {a : BusAddr} (h : a.toNat / 4 = 0) : target a = .ctrl := by
  simp [target, wordIndex, h, registerAt]

theorem target_status {a : BusAddr} (h : a.toNat / 4 = 1) : target a = .status := by
  simp [target, wordIndex, h, registerAt]

theorem target_cmd {a : BusAddr} (h : a.toNat / 4 = 2) : target a = .cmd := by
  simp [target, wordIndex, h, registerAt]

theorem target_mlen {a : BusAddr} (h : a.toNat / 4 = 3) : target a = .mlen := by
  simp [target, wordIndex, h, registerAt]

theorem target_key {a : BusAddr} {k : Fin 4} (h : a.toNat / 4 = 4 + k.val) : target a = .key k := by
  fin_cases k <;> simp_all [target, wordIndex, registerAt]

theorem target_blk {a : BusAddr} {k : Fin 4} (h : a.toNat / 4 = 8 + k.val) : target a = .blk k := by
  fin_cases k <;> simp_all [target, wordIndex, registerAt]

theorem target_gfr {a : BusAddr} (h : a.toNat / 4 = 12) : target a = .gfr := by
  simp [target, wordIndex, h, registerAt]

theorem target_inert {a : BusAddr} (h1 : 13 ≤ a.toNat / 4) (h2 : a.toNat / 4 < 0x4000) :
    target a = .reserved ∨ target a = .unmapped := by
  unfold target wordIndex
  split
  · left
    generalize a.toNat / 4 = n at *
    interval_cases n <;> rfl
  · exact Or.inr rfl

theorem target_window {a : BusAddr} {k : Nat} (h : a.toNat / 4 = 0x4000 + k) : target a = .window k := by
  simp [target, wordIndex, h, registerAt]; omega

/-- The word addresses whose writes a busy core drops and records. -/
theorem target_frozen {a : BusAddr} (h : 2 ≤ a.toNat / 4 ∧ a.toNat / 4 ≤ 12 ∨ 0x4000 ≤ a.toNat / 4) :
    (target a).frozenByBusy = true := by
  unfold target wordIndex
  rcases h with ⟨h1, h2⟩ | h
  · rw [if_pos (by omega)]
    generalize a.toNat / 4 = n at *
    interval_cases n <;> rfl
  · rw [if_neg (by omega), if_neg (by omega)]; rfl

/-! ## What a read answers -/

/-- A read that is no draw returns the target's value. -/
theorem hostRead_of_value {s : State} {a : BusAddr} (t : Target) (h : target a = t)
    (hm : s.busy = false ∨ drawMask t = none) : hostRead a s = { s with lastRead := some (readValue s t) } := by
  unfold hostRead
  rw [h]
  rcases hm with hm | hm <;> rw [hm]
  cases s.busy <;> rfl

/-- A read that is a draw returns the draw under the target's mask, and counts it. -/
theorem hostRead_of_draw {s : State} {a : BusAddr} (t : Target) (m : Word) (h : target a = t) (hb : s.busy = true)
    (hm : drawMask t = some m) :
    hostRead a s =
      { s with lastRead := some (Config.busyReadDraw s.readDraws &&& m), readDraws := s.readDraws + 1 } := by
  unfold hostRead
  rw [h, hb, hm]

/-- A write to an idle core does what its target does with it. -/
theorem hostWrite_of_idle {s : State} (a : BusAddr) (d : Word) (hb : s.busy = false) :
    hostWrite a d s = writeTarget (target a) d s := by
  unfold hostWrite
  rw [if_neg (by simp [hb])]

/-! ## Bytes of a bus word -/

theorem wordOfCol_byte (c : Col) (j : Fin 4) : (wordOfCol c).extractLsb' (8 * j.val) 8 = colGet c j := by
  fin_cases j <;>
    (simp only [wordOfCol, colGet]
     apply BitVec.eq_of_getLsbD_eq
     intro i hi
     simp only [BitVec.getLsbD_append, BitVec.getLsbD_extractLsb']
     interval_cases i <;> simp)

theorem blockSetCol_byte (b : Block) (k : Fin 4) (d : Word) (i : Fin 16) :
    blockByte (blockSetCol b k (colOfWord d)) i =
      if i.val / 4 = k.val then d.extractLsb' (8 * (i.val % 4)) 8 else blockByte b i := by
  fin_cases k <;> fin_cases i <;> rfl

end Sys2Proof.Machine
end

