-- ==== Sys2Proof/Laws/Ops.lean ====
section
/-! SUPPORT. One lemma per shared operation of the meanings, saying once what it answers. -/

namespace Sys2Proof.Machine

/-! ## The checks -/

theorem withMessageSize_of_le {s : State} (k : Answer) (h : s.mlen.toNat ≤ s.params.mbufSize) :
    withMessageSize s k = k := if_neg (by omega)

theorem withMessageSize_of_gt {s : State} (k : Answer) (h : s.params.mbufSize < s.mlen.toNat) :
    withMessageSize s k = .next (s.complete .length) := if_pos h

theorem withPaddedRoom_of_le {s : State} (k : Answer)
    (h : s.mlen.toNat + padCount s.mlen.toNat ≤ s.params.mbufSize) : withPaddedRoom s k = k := if_neg (by omega)

theorem withPaddedRoom_of_gt {s : State} (k : Answer)
    (h : s.params.mbufSize < s.mlen.toNat + padCount s.mlen.toNat) :
    withPaddedRoom s k = .next (s.complete .overflow) := if_pos h

theorem withKey_of_valid {s : State} (k : Answer) (h : s.kv = true) : withKey s k = k := if_pos h

theorem withKey_of_invalid {s : State} (k : Answer) (h : s.kv = false) : withKey s k = .next (s.complete .noKey) :=
  if_neg (by simp [h])

theorem withWholeBlocks_of_dvd {s : State} (k : Answer) (h : s.mlen.toNat % 16 = 0) : withWholeBlocks s k = k := if_pos h

theorem withWholeBlocks_of_not {s : State} (k : Answer) (h : s.mlen.toNat % 16 ≠ 0) :
    withWholeBlocks s k = .next (s.complete .length) := if_neg h

/-! ## The block commands -/

theorem transformBlk_answer (f : Block → Block) (s : State) :
    transformBlk f s = .next ({ s with blk := f s.blk }.complete .ok) := rfl

theorem transformBlkKeyed_of_valid (f : RoundKeys → Block → Block) {s : State} (h : s.kv = true) :
    transformBlkKeyed f s = .next ({ s with blk := f s.rk s.blk }.complete .ok) := if_pos h

theorem transformBlkKeyed_of_invalid (f : RoundKeys → Block → Block) {s : State} (h : s.kv = false) :
    transformBlkKeyed f s = .next (s.complete .noKey) := if_neg (by simp [h])

theorem transformBlkRound_of_lt (f : Fin 11 → RoundKeys → Block → Block) {r : BitVec 4} (s : State)
    (h : r.toNat < 11) : transformBlkRound f r s = transformBlkKeyed (f ⟨r.toNat, h⟩) s := dif_pos h

theorem transformBlkRound_of_ge (f : Fin 11 → RoundKeys → Block → Block) {r : BitVec 4} (s : State)
    (h : 11 ≤ r.toNat) : transformBlkRound f r s = .next (s.complete .illegal) := dif_neg (by omega)

theorem roundIndexOk_iff (r : BitVec 4) : roundIndexOk r = true ↔ r.toNat < 11 := by
  simp only [roundIndexOk, decide_eq_true_eq]; omega

/-! ## The message commands -/

theorem encryptMessage_of_ok (f : RoundKeys → List Byte → List Byte) {s : State}
    (hk : s.kv = true) (hr : s.mlen.toNat + padCount s.mlen.toNat ≤ s.params.mbufSize) :
    encryptMessage f s = .next
      (((s.memWrite 0 (f s.rk s.message)).setMlen (s.mlen.toNat + padCount s.mlen.toNat)).complete .ok) := by
  rw [encryptMessage, withMessageSize_of_le _ (by omega), withKey_of_valid _ hk, withPaddedRoom_of_le _ hr]; rfl

theorem decryptMessage_of_ok (f : RoundKeys → List Byte → List Byte) {s : State} {m : List Byte}
    (hl : s.mlen.toNat ≤ s.params.mbufSize) (hk : s.kv = true) (hb : s.mlen.toNat % 16 = 0)
    (hu : unpad (f s.rk s.message) = some m) :
    decryptMessage f s = .next (((s.memWrite 0 (f s.rk s.message)).setMlen m.length).complete .ok) := by
  rw [decryptMessage, withMessageSize_of_le _ hl, withKey_of_valid _ hk, withWholeBlocks_of_dvd _ hb, hu]; rfl

end Sys2Proof.Machine
end

