-- ==== Sys2Proof/Laws/Messages.lean ====
section
/-! SUPPORT. Lengths and Blocks of byte sequences: what padding, cutting into Blocks and joining Blocks do. -/

namespace Sys2Proof.Machine

theorem padCount_pos (n : Nat) : 1 ≤ padCount n ∧ padCount n ≤ 16 := by simp only [padCount]; omega

theorem padded_mod (n : Nat) : (n + padCount n) % 16 = 0 := by simp only [padCount]; omega

@[simp] theorem padBytes_length (n : Nat) : (padBytes n).length = padCount n := by simp [padBytes]

@[simp] theorem pad_length (m : List Byte) : (pad m).length = m.length + padCount m.length := by simp [pad]

@[simp] theorem blockBytesOf_length (b : Block) : (blockBytesOf b).length = 16 := rfl

@[simp] theorem blocksOf_length (q : Nat) (p : List Byte) : (blocksOf q p).length = q := by
  induction q generalizing p with
  | zero => rfl
  | succ q ih => simp [blocksOf, ih]

@[simp] theorem bytesOfBlocks_length (bs : List Block) : (bytesOfBlocks bs).length = 16 * bs.length := by
  induction bs with
  | nil => rfl
  | cons b bs ih => simp only [bytesOfBlocks, List.flatMap_cons, List.length_append] at ih ⊢; simp [ih]; omega

theorem bytesOfBlocks_cons (b : Block) (bs : List Block) : bytesOfBlocks (b :: bs) = blockBytesOf b ++ bytesOfBlocks bs :=
  rfl

@[simp] theorem cbcEncLoop_length (rk : RoundKeys) (prev : Block) (bs : List Block) :
    (cbcEncLoop rk prev bs).length = bs.length := by
  induction bs generalizing prev with
  | nil => rfl
  | cons b bs ih => simp [cbcEncLoop, ih]

@[simp] theorem cbcDecLoop_length (rk : RoundKeys) (prev : Block) (bs : List Block) :
    (cbcDecLoop rk prev bs).length = bs.length := by
  induction bs generalizing prev with
  | nil => rfl
  | cons b bs ih => simp [cbcDecLoop, ih]

theorem ecbEnc_length (rk : RoundKeys) (m : List Byte) : (ecbEnc rk m).length = m.length + padCount m.length := by
  have := padded_mod m.length
  simp [ecbEnc, blocks]; omega

theorem cbcEnc_length (rk : RoundKeys) (m : List Byte) : (cbcEnc rk m).length = m.length + padCount m.length := by
  have := padded_mod m.length
  simp [cbcEnc, blocks]; omega

theorem ecbDecBytes_length (rk : RoundKeys) (c : List Byte) : (ecbDecBytes rk c).length = 16 * (c.length / 16) := by
  simp [ecbDecBytes, blocks]

theorem cbcDecBytes_length (rk : RoundKeys) (c : List Byte) : (cbcDecBytes rk c).length = 16 * (c.length / 16) := by
  simp [cbcDecBytes, blocks]

/-- Joining a Block's bytes and reading the Block back. -/
theorem blockOfBytes_append (b : Block) (p : List Byte) : blockOfBytes (blockBytesOf b ++ p) = b := rfl

/-- Cutting the bytes of Blocks gives the Blocks back. -/
theorem blocksOf_bytesOfBlocks (bs : List Block) : blocksOf bs.length (bytesOfBlocks bs) = bs := by
  induction bs with
  | nil => rfl
  | cons b bs ih =>
    simp only [List.length_cons, blocksOf, bytesOfBlocks_cons, blockOfBytes_append]
    rw [List.drop_left' (blockBytesOf_length b), ih]

theorem blocks_bytesOfBlocks (bs : List Block) : blocks (bytesOfBlocks bs) = bs := by
  simp only [blocks, bytesOfBlocks_length, Nat.mul_div_cancel_left _ (by decide : 0 < 16)]
  exact blocksOf_bytesOfBlocks bs

/-- A sequence of at least 16 bytes begins with its first Block's bytes. -/
theorem blockBytesOf_blockOfBytes (p : List Byte) (h : 16 ≤ p.length) :
    blockBytesOf (blockOfBytes p) ++ p.drop 16 = p := by
  obtain ⟨x0, x1, x2, x3, x4, x5, x6, x7, x8, x9, x10, x11, x12, x13, x14, x15, q, rfl⟩ :
      ∃ x0 x1 x2 x3 x4 x5 x6 x7 x8 x9 x10 x11 x12 x13 x14 x15 q,
        p = x0 :: x1 :: x2 :: x3 :: x4 :: x5 :: x6 :: x7 :: x8 :: x9 :: x10 :: x11 :: x12 :: x13 :: x14 :: x15 :: q := by
    match p, h with
    | x0 :: x1 :: x2 :: x3 :: x4 :: x5 :: x6 :: x7 :: x8 :: x9 :: x10 :: x11 :: x12 :: x13 :: x14 :: x15 :: q, _ =>
      exact ⟨x0, x1, x2, x3, x4, x5, x6, x7, x8, x9, x10, x11, x12, x13, x14, x15, q, rfl⟩
  rfl

/-- Joining the Blocks of a sequence of whole Blocks gives the sequence back. -/
theorem bytesOfBlocks_blocks (p : List Byte) (h : p.length % 16 = 0) : bytesOfBlocks (blocks p) = p := by
  obtain ⟨q, hq⟩ : ∃ q, p.length = 16 * q := ⟨p.length / 16, by omega⟩
  rw [blocks, hq, Nat.mul_div_cancel_left _ (by decide : 0 < 16)]
  clear h
  induction q generalizing p with
  | zero => rw [List.length_eq_zero_iff.mp (by omega : p.length = 0)]; rfl
  | succ q ih =>
    rw [blocksOf, bytesOfBlocks_cons, ih (p.drop 16) (by simp; omega)]
    exact blockBytesOf_blockOfBytes p (by omega)

/-! ## Unpadding -/

/-- `unpad` of a nonempty sequence, by its last byte. -/
theorem unpad_of_last (m : List Byte) (n : Byte) (h : m.getLast? = some n) :
    unpad m =
      if n.toNat < 1 ∨ 16 < n.toNat then none
      else if m.length < n.toNat then none
      else if (m.drop (m.length - n.toNat)).all (· == n) then some (m.take (m.length - n.toNat))
      else none := by
  unfold unpad; rw [h]

/-! ## Single Blocks of a sequence -/

theorem blocksOf_getElem? (q : Nat) (p : List Byte) (i : Nat) (h : i < q) :
    (blocksOf q p)[i]? = some (blockOfBytes (p.drop (16 * i))) := by
  induction q generalizing p i with
  | zero => omega
  | succ q ih =>
    cases i with
    | zero => rfl
    | succ i => simp only [blocksOf, List.getElem?_cons_succ]; rw [ih _ _ (by omega), List.drop_drop]; congr 3; omega

/-- Block `i` of the concatenated Blocks. -/
theorem blockOfBytes_drop_bytesOfBlocks (bs : List Block) (i : Nat) (b : Block) (h : bs[i]? = some b) :
    blockOfBytes ((bytesOfBlocks bs).drop (16 * i)) = b := by
  induction bs generalizing i with
  | nil => simp at h
  | cons c bs ih =>
    cases i with
    | zero => simp at h; subst h; rfl
    | succ i =>
      rw [bytesOfBlocks_cons, show 16 * (i + 1) = 16 + 16 * i by omega, ← List.drop_drop,
        List.drop_left' (blockBytesOf_length c)]
      exact ih i (by simpa using h)

/-- A Block depends on its first 16 bytes only. -/
theorem blockOfBytes_take (p : List Byte) (n : Nat) (h : 16 ≤ n) : blockOfBytes (p.take n) = blockOfBytes p := by
  have e : ∀ k, k < 16 → (p.take n).getD k 0 = p.getD k 0 := by
    intro k hk
    simp only [List.getD_eq_getElem?_getD, List.getElem?_take, if_pos (show k < n by omega)]
  simp only [blockOfBytes, colOfBytes, Nat.zero_add, Nat.reduceAdd]
  rw [e 0 (by omega), e 1 (by omega), e 2 (by omega), e 3 (by omega), e 4 (by omega), e 5 (by omega), e 6 (by omega),
    e 7 (by omega), e 8 (by omega), e 9 (by omega), e 10 (by omega), e 11 (by omega), e 12 (by omega), e 13 (by omega),
    e 14 (by omega), e 15 (by omega)]

end Sys2Proof.Machine
end

