-- ==== Sys2Proof/Laws/Exec.lean ====
section
/-! SUPPORT. What a command can do, said once: the inversion lemma of exec. -/

namespace Sys2Proof.Machine

/-- The data writes a committing command can make to a state: nothing, `BLK`, `GFR`, the round keys, the length, or the length
and bytes inside the buffer. -/
inductive DataWrite (s : State) : State → Prop where
  | nothing : DataWrite s s
  | blk (b : Block) : DataWrite s { s with blk := b }
  | gfr (g : Byte) : DataWrite s { s with gfr := g }
  | roundKeys : DataWrite s { s with rk := expand s.key, kv := true }
  | length (n : Nat) : DataWrite s (s.setMlen n)
  | message (lo : Nat) (v : List Byte) (n : Nat) (h : lo + v.length ≤ s.params.mbufSize) :
      DataWrite s ((s.memWrite lo v).setMlen n)

/-- An answer is that of a command: it commits some data writes, or it reports an error and writes no data. -/
abbrev CommandAnswer (s : State) (x : Answer) : Prop :=
  (∃ d, DataWrite s d ∧ x = .next (d.complete .ok)) ∨ ∃ c, c ≠ .ok ∧ x = .next (s.complete c)

theorem answer_commit {s d : State} (h : DataWrite s d) : CommandAnswer s (commit d) := Or.inl ⟨d, h, rfl⟩

theorem answer_raise (s : State) {c : ErrCode} (h : c ≠ .ok) : CommandAnswer s (raiseError c s) := Or.inr ⟨c, h, rfl⟩

theorem answer_keyed (f : RoundKeys → Block → Block) (s : State) : CommandAnswer s (transformBlkKeyed f s) := by
  unfold transformBlkKeyed
  split
  · exact answer_commit (.blk _)
  · exact answer_raise s (by decide)

theorem answer_round (f : Fin 11 → RoundKeys → Block → Block) (r : BitVec 4) (s : State) :
    CommandAnswer s (transformBlkRound f r s) := by
  unfold transformBlkRound
  split
  · exact answer_keyed _ s
  · exact answer_raise s (by decide)

theorem answer_size {s : State} {k : Answer} (h : s.mlen.toNat ≤ s.params.mbufSize → CommandAnswer s k) :
    CommandAnswer s (withMessageSize s k) := by
  unfold withMessageSize
  split
  · exact answer_raise s (by decide)
  · exact h (by omega)

theorem answer_key {s : State} {k : Answer} (h : CommandAnswer s k) : CommandAnswer s (withKey s k) := by
  unfold withKey
  split
  · exact h
  · exact answer_raise s (by decide)

theorem answer_room {s : State} {k : Answer}
    (h : s.mlen.toNat + padCount s.mlen.toNat ≤ s.params.mbufSize → CommandAnswer s k) :
    CommandAnswer s (withPaddedRoom s k) := by
  unfold withPaddedRoom
  split
  · exact answer_raise s (by decide)
  · exact h (by omega)

theorem answer_encrypt (f : RoundKeys → List Byte → List Byte)
    (hf : ∀ rk m, (f rk m).length = m.length + padCount m.length) (s : State) :
    CommandAnswer s (encryptMessage f s) :=
  answer_size fun _ => answer_key <| answer_room fun h =>
    answer_commit (.message 0 _ _ (by rw [hf, message_length, Nat.zero_add]; exact h))

theorem answer_decrypt (f : RoundKeys → List Byte → List Byte)
    (hf : ∀ rk c, (f rk c).length = 16 * (c.length / 16)) (s : State) : CommandAnswer s (decryptMessage f s) := by
  refine answer_size fun h => answer_key ?_
  unfold withWholeBlocks
  split
  · split
    · exact answer_raise s (by decide)
    · exact answer_commit (.message 0 _ _ (by rw [hf, message_length]; omega))
  · exact answer_raise s (by decide)

/-- What any command can do: commit data writes, or report an error and write no data. -/
theorem exec_answer (i : Instr) (s : State) : CommandAnswer s (exec i s) := by
  cases i with
  | nop => exact answer_commit .nothing
  | keyexp => exact answer_commit .roundKeys
  | encb => exact answer_keyed _ s
  | decb => exact answer_keyed _ s
  | ark r => exact answer_round (fun k rk b => addRoundKey b rk[k]) r s
  | subb => exact answer_commit (.blk _)
  | isubb => exact answer_commit (.blk _)
  | shrow => exact answer_commit (.blk _)
  | ishrow => exact answer_commit (.blk _)
  | mixcol => exact answer_commit (.blk _)
  | imixcol => exact answer_commit (.blk _)
  | round r => exact answer_round (fun k rk b => encRound rk b k) r s
  | iround r => exact answer_round (fun k rk b => decRound rk b k) r s
  | pad => exact answer_size fun _ => answer_room fun h => answer_commit (.message _ _ _ (by simpa using h))
  | unpad =>
    refine answer_size fun _ => ?_
    split
    · exact answer_raise s (by decide)
    · exact answer_commit (.length _)
  | ecbe => exact answer_encrypt _ ecbEnc_length s
  | ecbd => exact answer_decrypt _ ecbDecBytes_length s
  | cbce => exact answer_encrypt _ cbcEnc_length s
  | cbcd => exact answer_decrypt _ cbcDecBytes_length s
  | gfmul a b => exact answer_commit (.gfr _)

/-- The same of a command word: it runs its command, or completes with `ILLEGAL`. -/
theorem completeWord_answer (w : Word) (s : State) : CommandAnswer s (completeWord w s) := by
  unfold completeWord
  split
  · exact exec_answer _ s
  · exact answer_raise s (by decide)

/-- What an answer that is a next state is. -/
theorem answer_cases {s t : State} {x : Answer} (h : CommandAnswer s x) (hx : x = .next t) :
    (∃ d, DataWrite s d ∧ t = d.complete .ok) ∨ ∃ c, c ≠ .ok ∧ t = s.complete c := by
  rcases h with ⟨d, hd, he⟩ | ⟨c, hc, he⟩
  · rw [he] at hx; cases hx; exact Or.inl ⟨d, hd, rfl⟩
  · rw [he] at hx; cases hx; exact Or.inr ⟨c, hc, rfl⟩

/-- Data writes touch nothing outside the data state. -/
theorem dataWrite_sameControl {s d : State} (h : DataWrite s d) : SameControl s d := by
  cases h <;> exact ⟨rfl, rfl, rfl, rfl, rfl, rfl, rfl⟩

end Sys2Proof.Machine
end

