-- ==== Sys2Proof/Laws/Galois.lean ====
section
/-! SUPPORT. The product of GF(2^8) is additive in each factor, and two additive functions that agree on the eight powers of 2
agree everywhere. -/

namespace Sys2Proof.Machine

theorem xtime_xor (a b : Byte) : xtime (a ^^^ b) = xtime a ^^^ xtime b := by
  simp only [xtime, BitVec.getLsbD_xor, BitVec.shiftLeft_xor_distrib]
  cases a.getLsbD 7 <;> cases b.getLsbD 7 <;> simp
  · ac_rfl
  · ac_rfl
  · rw [show a <<< 1 ^^^ 27#8 ^^^ (b <<< 1 ^^^ 27#8) = a <<< 1 ^^^ b <<< 1 ^^^ (27#8 ^^^ 27#8) by ac_rfl]
    simp

theorem gmulLoop_xor_right (n : Nat) (a b c p q : Byte) :
    gmulLoop n a (b ^^^ c) (p ^^^ q) = gmulLoop n a b p ^^^ gmulLoop n a c q := by
  induction n generalizing a b c p q with
  | zero => rfl
  | succ n ih =>
    simp only [gmulLoop, BitVec.ushiftRight_xor_distrib, BitVec.getLsbD_xor, ← ih]
    congr 1
    cases b.getLsbD 0 <;> cases c.getLsbD 0 <;> simp
    · ac_rfl
    · ac_rfl
    · rw [show p ^^^ a ^^^ (q ^^^ a) = p ^^^ q ^^^ (a ^^^ a) by ac_rfl]
      simp

theorem gmulLoop_xor_left (n : Nat) (a a' b p q : Byte) :
    gmulLoop n (a ^^^ a') b (p ^^^ q) = gmulLoop n a b p ^^^ gmulLoop n a' b q := by
  induction n generalizing a a' b p q with
  | zero => rfl
  | succ n ih =>
    simp only [gmulLoop, xtime_xor, ← ih]
    congr 1
    cases b.getLsbD 0 <;> simp
    ac_rfl

theorem gmul_xor_right (a b c : Byte) : gmul a (b ^^^ c) = gmul a b ^^^ gmul a c := gmulLoop_xor_right 8 a b c 0 0

theorem gmul_xor_left (a b c : Byte) : gmul (a ^^^ b) c = gmul a c ^^^ gmul b c := gmulLoop_xor_left 8 a b c 0 0

/-- Two additive functions on bytes that agree on the powers of 2 are equal. -/
theorem additive_ext (g h : Byte → Byte) (hg : ∀ x y, g (x ^^^ y) = g x ^^^ g y)
    (hh : ∀ x y, h (x ^^^ y) = h x ^^^ h y) (hb : ∀ k : Fin 8, g (1#8 <<< k.val) = h (1#8 <<< k.val)) (x : Byte) :
    g x = h x := by
  have g0 : g 0 = 0 := by simpa using hg 0 0
  have h0 : h 0 = 0 := by simpa using hh 0 0
  have fold : ∀ (l : List (Fin 8)) (p : Byte), g p = h p →
      g (l.foldl (fun p k => if x.getLsbD k.val then p ^^^ 1#8 <<< k.val else p) p) =
        h (l.foldl (fun p k => if x.getLsbD k.val then p ^^^ 1#8 <<< k.val else p) p) := by
    intro l
    induction l with
    | nil => intro p hp; exact hp
    | cons k l ih =>
      intro p hp
      refine ih _ ?_
      beta_reduce
      split
      · rw [hg, hh, hp, hb]
      · exact hp
  have bits : ∀ x : Byte, ([0, 1, 2, 3, 4, 5, 6, 7] : List (Fin 8)).foldl
      (fun p k => if x.getLsbD k.val then p ^^^ 1#8 <<< k.val else p) 0 = x := by decide
  have := fold [0, 1, 2, 3, 4, 5, 6, 7] 0 (by rw [g0, h0])
  rwa [bits x] at this

end Sys2Proof.Machine
end

