-- ==== Sys2Proof/Laws/PerInstr.lean ====
section
/-! SUPPORT. Statements made per command: decoding a well-formed command's word gives the command back (R95, R100). -/

namespace Sys2Proof.Laws.RoundTrip

/-- What is stated of each command. -/
def Statement (i : Instr) : Prop := i.wf = true → decode (encode i) = .ok i

/-! ## The fields of a format G word -/

theorem opcodeField_encodeG (a b : Byte) : opcodeField (encodeG 0x40 a b) = 0x40 := by
  ext i hi
  interval_cases i <;> simp [opcodeField, encodeG]

theorem reserved_encodeG (a b : Byte) : (encodeG 0x40 a b).extractLsb' 24 8 = 0#8 := by
  ext i hi
  interval_cases i <;> simp [encodeG]

theorem aField_encodeG (a b : Byte) : aField (encodeG 0x40 a b) = a := by
  ext i hi
  interval_cases i <;> simp [aField, encodeG]

theorem bField_encodeG (a b : Byte) : bField (encodeG 0x40 a b) = b := by
  ext i hi
  interval_cases i <;> simp [bField, encodeG]

/-! ## The commands -/

theorem nop : Statement .nop := fun _ => rfl
theorem keyexp : Statement .keyexp := fun _ => rfl
theorem encb : Statement .encb := fun _ => rfl
theorem decb : Statement .decb := fun _ => rfl

theorem ark (r : BitVec 4) : Statement (.ark r) := by
  revert r; unfold Statement; decide

theorem subb : Statement .subb := fun _ => rfl
theorem isubb : Statement .isubb := fun _ => rfl
theorem shrow : Statement .shrow := fun _ => rfl
theorem ishrow : Statement .ishrow := fun _ => rfl
theorem mixcol : Statement .mixcol := fun _ => rfl
theorem imixcol : Statement .imixcol := fun _ => rfl

theorem round (r : BitVec 4) : Statement (.round r) := by
  revert r; unfold Statement; decide

theorem iround (r : BitVec 4) : Statement (.iround r) := by
  revert r; unfold Statement; decide

theorem pad : Statement .pad := fun _ => rfl
theorem unpad : Statement .unpad := fun _ => rfl
theorem ecbe : Statement .ecbe := fun _ => rfl
theorem ecbd : Statement .ecbd := fun _ => rfl
theorem cbce : Statement .cbce := fun _ => rfl
theorem cbcd : Statement .cbcd := fun _ => rfl

theorem gfmul (a b : Byte) : Statement (.gfmul a b) := fun _ => by
  show decode (encodeG 0x40 a b) = _
  simp only [decode, opcodeField_encodeG]
  show decodeG _ _ = _
  simp only [decodeG, reserved_encodeG, aField_encodeG, bField_encodeG, if_true]

end Sys2Proof.Laws.RoundTrip
end

