-- ==== Sys2Proof/Laws/Step.lean ====
section
/-! SUPPORT. What a step can do, said once, and what each kind of step does to the invariant's parts. -/

namespace Sys2Proof.Machine

/-- The registers a host access can write while it is accepted, and how: the inversion lemma of a host write. -/
inductive HostWrites (s : State) : State → Prop where
  | nothing : HostWrites s s
  | dropped (h : s.busy = true) : HostWrites s { s with ovr := true }
  | ie (b : Bool) : HostWrites s { s with ie := b }
  | softReset : HostWrites s s.softReset
  | status (d : Word) : HostWrites s (writeStatus d s)
  | accepted (h : s.busy = false) (w : Word) : HostWrites s (acceptCommand w s)
  | mlen (h : s.busy = false) (n : BitVec 16) : HostWrites s { s with mlen := n }
  | key (h : s.busy = false) (k : Block) : HostWrites s { s with key := k, kv := false }
  | blk (h : s.busy = false) (b : Block) : HostWrites s { s with blk := b }
  | window (h : s.busy = false) (k : Nat) (d : Word) (hk : 4 * k + 3 < s.params.mbufSize) :
      HostWrites s (s.memWrite (4 * k) (colBytes (colOfWord d)))

theorem hostWrite_writes (a : BusAddr) (d : Word) (s : State) : HostWrites s (hostWrite a d s) := by
  unfold hostWrite
  split
  · rename_i h
    exact .dropped (Bool.and_eq_true_iff.mp h).1
  · rename_i h
    have idle : (target a).frozenByBusy = true → s.busy = false := fun hf => by simpa [hf] using h
    cases ht : target a <;> rw [ht] at idle
    case ctrl =>
      show HostWrites s (writeCtrl d s)
      unfold writeCtrl
      split
      · exact .softReset
      · exact .ie _
    case status => exact .status d
    case cmd => exact .accepted (idle rfl) d
    case mlen => exact .mlen (idle rfl) _
    case key => exact .key (idle rfl) _
    case blk => exact .blk (idle rfl) _
    case gfr => exact .nothing
    case reserved => exact .nothing
    case unmapped => exact .nothing
    case window k =>
      show HostWrites s (writeWindow k d s)
      unfold writeWindow
      split
      · rename_i h
        exact .window (idle rfl) _ d (by simpa [windowInside] using h)
      · exact .nothing

/-- A host read touches only the model's record of what it returned. -/
theorem hostRead_eq (a : BusAddr) (s : State) :
    ∃ x n, hostRead a s = { s with lastRead := some x, readDraws := n } ∧ (n = s.readDraws ∨ n = s.readDraws + 1) := by
  unfold hostRead
  split
  · exact ⟨_, _, rfl, Or.inr rfl⟩
  · exact ⟨_, s.readDraws, rfl, Or.inl rfl⟩

/-- The engine's step: a command's answer where a command is pending, else nothing. -/
theorem engineStep_answer (s : State) :
    (∃ w, s.pend = some w ∧ engineStep s = completeWord w s ∧ CommandAnswer s (engineStep s)) ∨
      s.pend = none ∧ engineStep s = .next s := by
  unfold engineStep
  cases h : s.pend with
  | none => exact Or.inr ⟨rfl, rfl⟩
  | some w => exact Or.inl ⟨w, rfl, rfl, completeWord_answer w s⟩

/-- What a step can do: the engine steps, the host makes one access, or the platform resets the core. -/
theorem step_cases (s : State) :
    (s.inputs = [] ∧ step s = engineStep s) ∨
      (∃ rest, s.inputs = .engine :: rest ∧ step s = engineStep { s with inputs := rest }) ∨
      (∃ a rest, s.inputs = .host a :: rest ∧ step s = .next (hostAccess a { s with inputs := rest })) ∨
      ∃ rest, s.inputs = .powerOn :: rest ∧ step s = .next ({ s with inputs := rest }.powerOnReset) := by
  unfold step
  split <;> rename_i h
  · exact Or.inl ⟨h, rfl⟩
  · exact Or.inr (Or.inr (Or.inl ⟨_, _, h, rfl⟩))
  · exact Or.inr (Or.inl ⟨_, h, rfl⟩)
  · exact Or.inr (Or.inr (Or.inr ⟨_, h, rfl⟩))

/-- One step of a run. -/
theorem run_step (k : Nat) {s t : State} {o : Answer} (h : step s = .next t) (hr : Host.Core.run core k t = o) :
    Host.Core.run core (k + 1) s = o := by
  have hc : core.step s = .next t := h
  simp only [Host.Core.run]
  rw [hc]; exact hr

end Sys2Proof.Machine
end

