-- ==== Sys2Proof/Tests/Slice0.lean ====
section
/-! SUPPORT. The model's own tests: well-formedness, decoding from words written out from spec/30_encoding.md, the vectors of
spec/95_test_vectors.md one step at a time, and for each obligation with hypotheses a witness that meets them. -/

namespace Sys2Proof.Machine.Tests

/-! ## Helpers -/

/-- The state an answer is, if it is a next state. -/
def after : Answer → Option State
  | .next t => some t
  | .fault _ => none
  | .refused _ => none

/-- A Block from its 16 bytes. -/
def blk16 (m : List Byte) : Block := blockOfBytes m

/-- The bytes 00 01 .. 0F. -/
def counting : Block :=
  blk16 [0x00, 0x01, 0x02, 0x03, 0x04, 0x05, 0x06, 0x07, 0x08, 0x09, 0x0A, 0x0B, 0x0C, 0x0D, 0x0E, 0x0F]

/-- The key text "Thats my Kung Fu" (R64). -/
def keyText : Block :=
  blk16 [0x54, 0x68, 0x61, 0x74, 0x73, 0x20, 0x6D, 0x79, 0x20, 0x4B, 0x75, 0x6E, 0x67, 0x20, 0x46, 0x75]

/-- The plaintext "Two One Nine Two" (KV-1). -/
def plainText : Block :=
  blk16 [0x54, 0x77, 0x6F, 0x20, 0x4F, 0x6E, 0x65, 0x20, 0x4E, 0x69, 0x6E, 0x65, 0x20, 0x54, 0x77, 0x6F]

/-- The ciphertext of KV-1. -/
def cipherText : Block :=
  blk16 [0x29, 0xC3, 0x50, 0x5F, 0x57, 0x14, 0x20, 0xF6, 0x40, 0x22, 0x99, 0xB3, 0x1A, 0x02, 0xD7, 0x3A]

/-- The encryption of sixteen 0x10 bytes under the key text: `E10` of spec/95_test_vectors.md section 2.8. -/
def e10 : Block :=
  blk16 [0xB3, 0xE4, 0x6F, 0x11, 0xBA, 0x8D, 0x2B, 0x97, 0xC1, 0x87, 0x69, 0x44, 0x9A, 0x89, 0xE8, 0x68]

/-- The reset state with `BLK` set. -/
def withBlk (b : Block) : State := { State.reset with blk := b }

/-- The reset state with the key text expanded, and `BLK` set. -/
def keyed (b : Block) : State := { State.reset with key := keyText, rk := expand keyText, kv := true, blk := b }

/-- A state with a message in the buffer. -/
def withMessage (s : State) (m : List Byte) : State := (s.memWrite 0 m).setMlen m.length

/-- A state with a command word in progress. -/
def busyWith (w : Word) : State := acceptCommand w State.reset

/-! ## Well-formedness: each check refuses an ill-formed term -/

theorem test_wf_ark_11 : Instr.wf (.ark 11) = false := by decide
theorem test_wf_round_11 : Instr.wf (.round 11) = false := by decide
theorem test_wf_iround_15 : Instr.wf (.iround 15) = false := by decide
theorem test_wf_ark_10 : Instr.wf (.ark 10) = true := by decide
theorem test_assemble_refuses : assemble (.round 11) = none := by decide

/-! ## Decoding: every constructor from a word written out from R100 -/

theorem test_decode_nop : decode 0x00000000 = .ok .nop := by rfl
theorem test_decode_keyexp : decode 0x00000001 = .ok .keyexp := by rfl
theorem test_decode_encb : decode 0x00000002 = .ok .encb := by rfl
theorem test_decode_decb : decode 0x00000003 = .ok .decb := by rfl
theorem test_decode_ark : decode 0x00000A10 = .ok (.ark 10) := by rfl
theorem test_decode_subb : decode 0x00000011 = .ok .subb := by rfl
theorem test_decode_isubb : decode 0x00000012 = .ok .isubb := by rfl
theorem test_decode_shrow : decode 0x00000013 = .ok .shrow := by rfl
theorem test_decode_ishrow : decode 0x00000014 = .ok .ishrow := by rfl
theorem test_decode_mixcol : decode 0x00000015 = .ok .mixcol := by rfl
theorem test_decode_imixcol : decode 0x00000016 = .ok .imixcol := by rfl
theorem test_decode_round : decode 0x00000117 = .ok (.round 1) := by rfl
theorem test_decode_iround : decode 0x00000918 = .ok (.iround 9) := by rfl
theorem test_decode_pad : decode 0x00000020 = .ok .pad := by rfl
theorem test_decode_unpad : decode 0x00000021 = .ok .unpad := by rfl
theorem test_decode_ecbe : decode 0x00000030 = .ok .ecbe := by rfl
theorem test_decode_ecbd : decode 0x00000031 = .ok .ecbd := by rfl
theorem test_decode_cbce : decode 0x00000032 = .ok .cbce := by rfl
theorem test_decode_cbcd : decode 0x00000033 = .ok .cbcd := by rfl
theorem test_decode_gfmul : decode 0x00835740 = .ok (.gfmul 0x57 0x83) := by rfl
/-- The illegal words of CT-3, CT-4, KS-4, AK-5 and GF-12. -/
theorem test_decode_illegal :
    decode 0x00000004 = .error .unassignedOpcode ∧ decode 0x80000002 = .error .reservedBits ∧
      decode 0x00000101 = .error .reservedBits ∧ decode 0x00000B10 = .error .roundIndex ∧
      decode 0x01835740 = .error .reservedBits := ⟨rfl, rfl, rfl, rfl, rfl⟩
theorem test_decodeTableWord : decodeTableWord 32 0x00000A18 = some (.iround 10) := by rfl

/-! ## Commands, one step each (spec/95_test_vectors.md, by id) -/

/-- CT-2: the code of the command before is overwritten. -/
theorem test_nop_CT2 : (after (exec .nop { State.reset with errcode := .padding, kv := true })).map statusWord = some 6 := by
  decide

/-- KS-1, the last round key. -/
theorem test_keyexp_KS1 : (after (exec .keyexp { State.reset with key := keyText })).map (fun t => (t.rk[10], t.kv)) =
    some (blk16 [0x28, 0xFD, 0xDE, 0xF8, 0x6D, 0xA4, 0x24, 0x4A, 0xCC, 0xC0, 0xA4, 0xFE, 0x3B, 0x31, 0x6F, 0x26], true) := by
  decide +kernel

/-- EB-1, the known vector. -/
theorem test_encb_EB1 : (after (exec .encb (keyed plainText))).map State.blk = some cipherText := by decide +kernel
/-- EB-4. -/
theorem test_encb_EB4 : (after (exec .encb (withBlk plainText))).map (fun t => (t.blk, t.errcode)) =
    some (plainText, .noKey) := by decide
/-- EB-5. -/
theorem test_decb_EB5 : (after (exec .decb (keyed Block.zero))).map State.blk =
    some (blk16 [0x22, 0xB9, 0xBC, 0xC5, 0x14, 0x3D, 0x04, 0x1E, 0xF9, 0xC8, 0x89, 0x32, 0x12, 0x15, 0x91, 0xA4]) := by
  decide +kernel

/-- AK-1. -/
theorem test_ark_AK1 : (after (exec (.ark 1) (keyed Block.zero))).map State.blk =
    some (blk16 [0xE2, 0x32, 0xFC, 0xF1, 0x91, 0x12, 0x91, 0x88, 0xB1, 0x59, 0xE4, 0xE6, 0xD6, 0x79, 0xA2, 0x93]) := by
  decide +kernel
/-- AK-6. -/
theorem test_ark_AK6 : (after (exec (.ark 1) State.reset)).map statusWord = some 0x202 := by decide

/-- SB-1. -/
theorem test_subb_SB1 : (after (exec .subb (withBlk counting))).map State.blk =
    some (blk16 [0x63, 0x7C, 0x77, 0x7B, 0xF2, 0x6B, 0x6F, 0xC5, 0x30, 0x01, 0x67, 0x2B, 0xFE, 0xD7, 0xAB, 0x76]) := by
  decide +kernel
/-- SB-2. -/
theorem test_isubb_SB2 : (after (exec .isubb (withBlk counting))).map State.blk =
    some (blk16 [0x52, 0x09, 0x6A, 0xD5, 0x30, 0x36, 0xA5, 0x38, 0xBF, 0x40, 0xA3, 0x9E, 0x81, 0xF3, 0xD7, 0xFB]) := by
  decide +kernel
/-- SR-1. -/
theorem test_shrow_SR1 : (after (exec .shrow (withBlk counting))).map State.blk =
    some (blk16 [0x00, 0x05, 0x0A, 0x0F, 0x04, 0x09, 0x0E, 0x03, 0x08, 0x0D, 0x02, 0x07, 0x0C, 0x01, 0x06, 0x0B]) := by
  decide
/-- SR-2. -/
theorem test_ishrow_SR2 : (after (exec .ishrow (withBlk counting))).map State.blk =
    some (blk16 [0x00, 0x0D, 0x0A, 0x07, 0x04, 0x01, 0x0E, 0x0B, 0x08, 0x05, 0x02, 0x0F, 0x0C, 0x09, 0x06, 0x03]) := by
  decide
/-- MC-1. -/
theorem test_mixcol_MC1 : (after (exec .mixcol (withBlk counting))).map State.blk =
    some (blk16 [0x02, 0x07, 0x00, 0x05, 0x06, 0x03, 0x04, 0x01, 0x0A, 0x0F, 0x08, 0x0D, 0x0E, 0x0B, 0x0C, 0x09]) := by
  decide +kernel
/-- MC-2. -/
theorem test_imixcol_MC2 : (after (exec .imixcol (withBlk counting))).map State.blk =
    some (blk16 [0x0A, 0x0F, 0x08, 0x0D, 0x0E, 0x0B, 0x0C, 0x09, 0x02, 0x07, 0x00, 0x05, 0x06, 0x03, 0x04, 0x01]) := by
  decide +kernel
/-- MC-3, one column. -/
theorem test_mixcol_MC3 : matrixTimesCol mixRow ⟨0xDB, 0x13, 0x53, 0x45⟩ = ⟨0x8E, 0x4D, 0xA1, 0xBC⟩ := by decide

/-- RT-1, round 0 then round 1 of its table. -/
theorem test_round_RT1 : (after (exec (.round 1) (keyed (blk16
      [0x00, 0x1F, 0x0E, 0x54, 0x3C, 0x4E, 0x08, 0x59, 0x6E, 0x22, 0x1B, 0x0B, 0x47, 0x74, 0x31, 0x1A])))).map State.blk =
    some (blk16 [0x58, 0x47, 0x08, 0x8B, 0x15, 0xB6, 0x1C, 0xBA, 0x59, 0xD4, 0xE2, 0xE8, 0xCD, 0x39, 0xDF, 0xCE]) := by
  decide +kernel
/-- RT-1, the last round has no column mixing. -/
theorem test_round_RT1_last : (after (exec (.round 10) (keyed (blk16
      [0x09, 0x66, 0x8B, 0x78, 0xA2, 0xD1, 0x9A, 0x65, 0xF0, 0xFC, 0xE6, 0xC4, 0x7B, 0x3B, 0x30, 0x89])))).map State.blk =
    some cipherText := by decide +kernel
/-- The example of R205. -/
theorem test_iround_R205 : (after (exec (.iround 10) (keyed cipherText))).map State.blk =
    some (blk16 [0x09, 0x66, 0x8B, 0x78, 0xA2, 0xD1, 0x9A, 0x65, 0xF0, 0xFC, 0xE6, 0xC4, 0x7B, 0x3B, 0x30, 0x89]) := by
  decide +kernel

/-- GF-1 and GF-4, with the operands as the words place them. -/
theorem test_gfmul_GF : (after (exec (.gfmul 0x57 0x83) State.reset)).map State.gfr = some 0xC1 ∧
    (after (exec (.gfmul 0x80 0x02) State.reset)).map State.gfr = some 0x1B := by decide

/-- PD-1: "Two One Nine". -/
theorem test_pad_PD1 : (after (exec .pad (withMessage State.reset
      [0x54, 0x77, 0x6F, 0x20, 0x4F, 0x6E, 0x65, 0x20, 0x4E, 0x69, 0x6E, 0x65]))).map
        (fun t => (t.mlen, t.memRead 10 6)) = some (16, [0x6E, 0x65, 0x04, 0x04, 0x04, 0x04]) := by decide
/-- PD-6 and PD-7. -/
theorem test_pad_PD6_PD7 : (after (exec .pad { State.reset with mlen := 4096 })).map State.errcode = some .overflow ∧
    (after (exec .pad { State.reset with mlen := 5000 })).map State.errcode = some .length := by decide
/-- PD-15 and PD-14. -/
theorem test_unpad_PD15_PD14 :
    (after (exec .unpad (withMessage State.reset [0x41, 0x42, 0x03, 0x03, 0x03]))).map State.mlen = some 2 ∧
      (after (exec .unpad (withMessage State.reset [0x03, 0x03, 0x04]))).map State.errcode = some .padding := by decide
/-- PD-11. -/
theorem test_unpad_PD11 : (after (exec .unpad State.reset)).map State.errcode = some .padding := by decide

/-- MO-1, encryption. -/
theorem test_ecbe_MO1 : (after (exec .ecbe (withMessage (keyed Block.zero) (blockBytesOf plainText)))).map
      (fun t => (t.mlen, t.memRead 0 32)) = some (32, blockBytesOf cipherText ++ blockBytesOf e10) := by decide +kernel
/-- MO-1, decryption: the padding stays behind the message. -/
theorem test_ecbd_MO1 :
    (after (exec .ecbd (withMessage (keyed Block.zero) (blockBytesOf cipherText ++ blockBytesOf e10)))).map
      (fun t => (t.mlen, t.memRead 0 32)) = some (16, blockBytesOf plainText ++ List.replicate 16 0x10) := by
  decide +kernel
/-- MO-5. -/
theorem test_ecbd_MO5 : (after (exec .ecbd (withMessage (keyed Block.zero) (blockBytesOf cipherText)))).map statusWord =
    some 0x406 := by decide +kernel
/-- MO-2, encryption. -/
theorem test_cbce_MO2 : (after (exec .cbce (withMessage (keyed Block.zero) (blockBytesOf plainText)))).map
      (fun t => (t.mlen, t.memRead 16 16)) =
    some (32, [0x5F, 0x59, 0x17, 0xEC, 0x37, 0x6A, 0x3A, 0x26, 0x9E, 0xFA, 0xDB, 0x6B, 0x2D, 0x61, 0xE4, 0xE3]) := by
  decide +kernel
/-- MO-2, decryption. -/
theorem test_cbcd_MO2 : (after (exec .cbcd (withMessage (keyed Block.zero) (blockBytesOf cipherText ++
      [0x5F, 0x59, 0x17, 0xEC, 0x37, 0x6A, 0x3A, 0x26, 0x9E, 0xFA, 0xDB, 0x6B, 0x2D, 0x61, 0xE4, 0xE3])))).map
      (fun t => (t.mlen, t.memRead 0 16)) = some (16, blockBytesOf plainText) := by decide +kernel
/-- MO-11 and MO-12: the order of the checks. -/
theorem test_order_MO11_MO12 : (after (exec .ecbd { State.reset with mlen := 17 })).map State.errcode = some .noKey ∧
    (after (exec .ecbe { State.reset with mlen := 5000 })).map State.errcode = some .length := by decide

/-! ## The host's accesses and the steps -/

/-- `withFetchWord` makes the very next step run the word (GF-1). -/
theorem test_withFetchWord : (after (step (State.reset.withFetchWord 32 0x00835740))).map State.gfr = some 0xC1 := by
  decide
/-- CT-3: an illegal word completes with `ILLEGAL`. -/
theorem test_illegal_CT3 : (after (step (State.reset.withFetchWord 32 0x00000004))).map statusWord = some 0x102 := by
  decide
/-- CT-8 and CT-9, and the `STATUS` write of CT-8. -/
theorem test_busy_write_CT8_CT9 : (hostWrite 0x20 0x1234 (busyWith 0)).ovr = true ∧
    (hostWrite 0x08 0 (busyWith 1)).pend = some 1 ∧
      (hostWrite 0x04 0x8 { busyWith 0 with ovr := true }).ovr = false := by decide
/-- CT-13, with the read. -/
theorem test_mlen_CT13 : (hostRead 0x0C (hostWrite 0x0F 0xFFFF1234 State.reset)).lastRead = some 0x1234 := by decide
/-- CT-14: the first window word above the buffer. -/
theorem test_window_CT14 : (hostWrite 0x11000 0xFFFFFFFF State.reset).mbuf = [] ∧
    (hostRead 0x11000 State.reset).lastRead = some 0 := by decide
/-- The first window word is little-endian (P2, line 2). -/
theorem test_window_P2 : (hostWrite 0x10000 0x206F7754 State.reset).mbuf = [(0, 0x54), (1, 0x77), (2, 0x6F), (3, 0x20)] := by
  decide
/-- CT-7: the interrupt. -/
theorem test_irq_CT7 : (after (exec .nop (hostWrite 0x00 1 State.reset))).map State.irq = some true := by decide
/-- CT-11 and KS-5. -/
theorem test_key_CT11_KS5 : (hostRead 0x10 (keyed Block.zero)).lastRead = some 0 ∧
    (hostWrite 0x14 0 (keyed Block.zero)).kv = false := by decide +kernel
/-- The reset state's buffer is in canonical form. -/
theorem test_reset_memory : State.reset.mbuf.wf := by decide

/-! ## Witnesses: states and operands that meet the hypotheses of each obligation, every clause at the ends of its range -/

theorem witness_EncodeThenDecodeGivesTheCommand : Instr.wf (.iround 10) = true ∧ Instr.wf (.gfmul 0xFF 0xFF) = true := by
  decide

theorem witness_DecodedWordIsTheWordOfItsCommand : decode 0x00FFFF40 = .ok (.gfmul 0xFF 0xFF) := by rfl

theorem witness_DecoderAgreesWithTheOpcodeTable :
    decode 0x00000A17 = .ok (.round 10) ∧ ∃ row ∈ opcodeTable, row.takes 0x00000A17 = true :=
  ⟨rfl, rowR "ROUND" 0x17, by decide, by decide⟩

/-- The first clause takes every word; an illegal word meets the second, an idle core and a core with that word pending the
rest. -/
theorem witness_IllegalWordsAreThoseListedAndOnlyReportIllegal :
    decode 0x000000FF = .error .unassignedOpcode ∧ (0x0B : BusAddr).toNat / 4 = 2 ∧ State.reset.busy = false ∧
      (busyWith 0x000000FF).pend = some 0x000000FF := ⟨rfl, by decide, rfl, rfl⟩

theorem witness_StepRunsTheDecodedCommand :
    ((busyWith 0).pend = some 0 ∧ decode 0 = .ok .nop ∧ (busyWith 0).inputs = []) ∧
      { busyWith 0 with inputs := [.engine] }.inputs = [Input.engine] ∧
      ((busyWith 0x80000002).pend = some 0x80000002 ∧ decode 0x80000002 = .error .reservedBits ∧
        (busyWith 0x80000002).inputs = []) ∧
      (State.reset.pend = none ∧ State.reset.inputs = []) ∧
      { State.reset with inputs := [.engine] }.inputs = [Input.engine] ∧
      { State.reset with inputs := [.host (.read 0)] }.inputs = [.host (.read 0)] ∧
      { State.reset with inputs := [.powerOn] }.inputs = [Input.powerOn] :=
  ⟨⟨rfl, rfl, rfl⟩, rfl, ⟨rfl, rfl, rfl⟩, ⟨rfl, rfl⟩, rfl, rfl, rfl⟩

/-- An idle core; a core with a command in progress; and, while busy, a write to `CMD` and one to `CTRL` that is no soft
reset. -/
theorem witness_CommandWriteIsAcceptedOnlyWhenIdle :
    ((0x08 : BusAddr).toNat / 4 = 2 ∧ (0x0B : BusAddr).toNat / 4 = 2) ∧
      (State.reset.pend = none ∧ State.reset.busy = false) ∧
      ((busyWith 1).pend.isSome = true ∧ (busyWith 1).busy = true) ∧
      ¬((0x08 : BusAddr).toNat / 4 = 0 ∧ (1 : Word).getLsbD 1 = true) ∧
      ¬((0x00 : BusAddr).toNat / 4 = 0 ∧ (1 : Word).getLsbD 1 = true) := by decide

theorem witness_EveryRunEndsWithNothingPending :
    State.Inv { busyWith 0x30 with inputs := [.host (.read 4), .powerOn] } := by decide

theorem witness_ExecLinesEndInTheCompletedState : State.reset.pend = none ∧ State.reset.busy = false := by decide

/-- A word of each kind (MO-11 and CT-3). -/
theorem witness_CommandsReportTheFirstErrorThatHolds :
    decode 0x00000031 = .ok .ecbd ∧ decode 0x00000004 = .error .unassignedOpcode := ⟨rfl, rfl⟩

/-- A command that commits, and one that ends with an error. -/
theorem witness_FailedCommandChangesOnlyStatus :
    (∃ t, exec .nop State.reset = .next t ∧ t.errcode = .ok) ∧ ∃ t, exec .encb State.reset = .next t ∧ t.errcode ≠ .ok :=
  ⟨⟨_, rfl, rfl⟩, _, rfl, by decide⟩

theorem witness_CommandResultIgnoresTheStatusFlags : ∃ t, exec .subb (withBlk counting) = .next t := ⟨_, rfl⟩

/-- A message command and a block command, from a state in canonical form. -/
theorem witness_MessageAndBlockCommandsKeepApart :
    (withMessage State.reset [1, 2, 3]).mbuf.wf ∧
      ((∃ t, exec .pad (withMessage State.reset [1, 2, 3]) = .next t) ∧ isMessageCommand .pad = true) ∧
      (∃ t, exec .subb (withMessage State.reset [1, 2, 3]) = .next t) ∧ isMessageCommand .subb = false :=
  ⟨by decide, ⟨⟨_, rfl⟩, rfl⟩, ⟨_, rfl⟩, rfl⟩

/-- A step that changes `RK`, and one that changes `GFR`. -/
theorem witness_OnlyKeyexpAndGfmulAndResetsWriteTheirRegisters :
    (after (step (busyWith 0x00000001))).map (fun t => decide (t.rk = State.reset.rk)) = some false ∧
      (after (step (busyWith 0x00010140))).map (fun t => decide (t.gfr = State.reset.gfr)) = some false := by
  decide +kernel

/-- Steps that raise `KV` and clear it: KEYEXP, and a key write to an idle core. -/
theorem witness_KeyValidRisesOnlyByKeyexpAndFallsOnlyByKeyWriteOrReset :
    (after (step (busyWith 0x00000001))).map State.kv = some true ∧
      (after (step { keyed counting with inputs := [.host (.write 0x1F 0)] })).map State.kv = some false := by
  decide +kernel

/-- Steps that raise `OVR` and clear it: a dropped write at the last register, and a `STATUS` write. -/
theorem witness_OverrunFlagIsSetByDroppedWritesAndStays :
    (after (step { busyWith 0 with inputs := [.host (.write 0x33 0)] })).map State.ovr = some true ∧
      (after (step { State.reset with ovr := true, inputs := [.host (.write 0x04 0x8)] })).map State.ovr = some false := by
  decide

/-- Steps that raise `DONE` and clear it: a completion, a `STATUS` write and an acceptance. -/
theorem witness_DoneRisesOnlyAtCompletion :
    (after (step (busyWith 0))).map State.done = some true ∧
      (after (step { State.reset with done := true, inputs := [.host (.write 0x04 0x2)] })).map State.done = some false ∧
      (after (step { State.reset with done := true, inputs := [.host (.write 0x08 0)] })).map State.done = some false := by
  decide

/-- The reset state; a busy state; and a state with a valid key and a full buffer's last byte written. -/
theorem witness_EveryStepKeepsTheInvariant :
    State.reset.Inv ∧ (busyWith 0x30).Inv ∧ State.Inv { keyed counting with mbuf := [(4095, 7)], mlen := 4096 } := by
  decide +kernel

theorem witness_PowerOnResetGivesTheResetValues :
    { busyWith 0x30 with inputs := [.powerOn] }.inputs = [Input.powerOn] ∧ (0x08 : BusAddr).toNat / 4 = 2 := by decide

/-- A soft reset that abandons a message command, one with nothing pending, one that abandons another command, and one that
abandons an illegal word. -/
theorem witness_SoftResetGivesTheResetValues :
    ((0x03 : BusAddr).toNat / 4 = 0 ∧ (2 : Word).getLsbD 1 = true) ∧
      ((busyWith 0x33).pend = some 0x33 ∧ decode 0x33 = .ok .cbcd ∧ isMessageCommand .cbcd = true) ∧
      State.reset.pend = none ∧
      ((busyWith 0x02).pend = some 0x02 ∧ decode 0x02 = .ok .encb ∧ isMessageCommand .encb = false) ∧
      (busyWith 0x04).pend = some 0x04 ∧ decode 0x04 = .error .unassignedOpcode :=
  ⟨by decide, ⟨rfl, rfl, rfl⟩, rfl, ⟨rfl, rfl, rfl⟩, rfl, rfl⟩

theorem witness_ControlRegisterReadsAndWrites :
    (0x00 : BusAddr).toNat / 4 = 0 ∧ (0x03 : BusAddr).toNat / 4 = 0 ∧ (1 : Word).getLsbD 1 = false ∧
      (3 : Word).getLsbD 1 = true := by decide

theorem witness_InterruptOutputRisesAndFalls :
    ((∃ t, completeWord 0x00000000 State.reset = .next t) ∧ ∃ t, completeWord 0x000000FF State.reset = .next t) ∧
      ((0x00 : BusAddr).toNat / 4 = 0 ∧ (1 : Word).getLsbD 1 = false ∧ (2 : Word).getLsbD 1 = true) ∧
      (0x04 : BusAddr).toNat / 4 = 1 ∧ (0x08 : BusAddr).toNat / 4 = 2 ∧ State.reset.busy = false :=
  ⟨⟨⟨_, rfl⟩, _, rfl⟩, by decide, by decide, by decide, rfl⟩

theorem witness_LowAddressBitsAreIgnored :
    { State.reset with inputs := [.host (.read 0x1FFFF)] }.inputs = [.host (.read 0x1FFFF)] := rfl

/-- Both ends of the word, and a state for each error code. -/
theorem witness_StatusRegisterReadsAndWrites :
    ((0x04 : BusAddr).toNat / 4 = 1 ∧ (0x07 : BusAddr).toNat / 4 = 1) ∧ State.reset.errcode = .ok ∧
      { State.reset with errcode := .illegal }.errcode = .illegal ∧
      { State.reset with errcode := .noKey }.errcode = .noKey ∧
      { State.reset with errcode := .length }.errcode = .length ∧
      { State.reset with errcode := .padding }.errcode = .padding ∧
      { State.reset with errcode := .overflow }.errcode = .overflow := by decide

/-- A busy core, and the first and last word of each range. -/
theorem witness_BusyWritesAreDroppedAndRecorded :
    (busyWith 0).busy = true ∧ (0x08 : BusAddr).toNat / 4 = 2 ∧ (0x33 : BusAddr).toNat / 4 = 12 ∧
      (0x10000 : BusAddr).toNat / 4 = 0x4000 ∧ (0x1FFFF : BusAddr).toNat / 4 = 0x7FFF ∧
      (0x34 : BusAddr).toNat / 4 = 13 ∧ (0xFFFF : BusAddr).toNat / 4 = 0x3FFF ∧ (0x03 : BusAddr).toNat / 4 = 0 ∧
      (0x07 : BusAddr).toNat / 4 = 1 := by decide

theorem witness_BusyReadsReturnDraws :
    (busyWith 0).busy = true ∧ (0x20 : BusAddr).toNat / 4 = 8 ∧ (0x2F : BusAddr).toNat / 4 = 11 ∧
      (0x10000 : BusAddr).toNat / 4 = 0x4000 ∧ (0x0C : BusAddr).toNat / 4 = 3 ∧ (0x30 : BusAddr).toNat / 4 = 12 ∧
      (0x00 : BusAddr).toNat / 4 = 0 ∧ (0x04 : BusAddr).toNat / 4 = 1 ∧ (0x08 : BusAddr).toNat / 4 = 2 ∧
      (0x10 : BusAddr).toNat / 4 = 4 ∧ (0x1F : BusAddr).toNat / 4 = 7 ∧ (0x34 : BusAddr).toNat / 4 = 13 ∧
      (0xFFFF : BusAddr).toNat / 4 = 0x3FFF := by decide

theorem witness_ReservedAndUnmappedWordsAreInert :
    0x034 ≤ (0x034 : BusAddr).toNat ∧ (0x0FFFF : BusAddr).toNat < 0x10000 := by decide

theorem witness_KeyIsNeverReadable :
    (0x08 : BusAddr).toNat / 4 = 2 ∧ (0x10 : BusAddr).toNat / 4 = 4 ∧ (0x1F : BusAddr).toNat / 4 = 7 := by decide

theorem witness_KeyAndBlockWordsPackLittleEndian :
    State.reset.busy = false ∧ (0x10 : BusAddr).toNat / 4 = 4 + (0 : Fin 4).val ∧
      (0x1C : BusAddr).toNat / 4 = 4 + (3 : Fin 4).val ∧ (0x20 : BusAddr).toNat / 4 = 8 + (0 : Fin 4).val ∧
      (0x2C : BusAddr).toNat / 4 = 8 + (3 : Fin 4).val := by decide

theorem witness_LengthAndProductWords :
    State.reset.busy = false ∧ (0x0C : BusAddr).toNat / 4 = 3 ∧ (0x33 : BusAddr).toNat / 4 = 12 := by decide

/-- The first word, the last word inside, and the first word outside the buffer of 4096 bytes. -/
theorem witness_WindowWordsMapTheBufferLittleEndian :
    State.reset.params.Valid ∧ State.reset.mbuf.wf ∧ State.reset.busy = false ∧
      (0x10000 : BusAddr).toNat / 4 = 0x4000 + 0 ∧
      ((0x10FFF : BusAddr).toNat / 4 = 0x4000 + 1023 ∧ 4 * 1023 + 3 < State.reset.params.mbufSize) ∧
      (0x11000 : BusAddr).toNat / 4 = 0x4000 + 1024 ∧ State.reset.params.mbufSize ≤ 4 * 1024 := by decide

theorem witness_GaloisMultiplicationLaws : (0x53 : Byte) ≠ 0 ∧ gmul 0x53 0xCA = 1 := by decide

theorem witness_SboxIsTheAffineInverseAndInvSboxUndoesIt : (0xFF : Byte) ≠ 0 ∧ (0x01 : Byte) ≠ 0 := by decide

theorem witness_UnpadUndoesPad : unpad [0x41, 0x42, 0x03, 0x03, 0x03] = some [0x41, 0x42] ∧ unpad [0x01] = some [] := by
  decide

/-- The longest message whose padding still fits. -/
theorem witness_EncryptThenDecryptRestoresTheMessage :
    let s : State := { keyed Block.zero with mlen := 4095 }
    s.Inv ∧ s.kv = true ∧ s.mlen.toNat + (16 - s.mlen.toNat % 16) ≤ s.params.mbufSize := by decide +kernel

theorem witness_KnownVectorHolds :
    blockBytesOf (keyed plainText).key =
      [0x54, 0x68, 0x61, 0x74, 0x73, 0x20, 0x6D, 0x79, 0x20, 0x4B, 0x75, 0x6E, 0x67, 0x20, 0x46, 0x75] ∧
      blockBytesOf (keyed plainText).blk =
        [0x54, 0x77, 0x6F, 0x20, 0x4F, 0x6E, 0x65, 0x20, 0x4E, 0x69, 0x6E, 0x65, 0x20, 0x54, 0x77, 0x6F] := ⟨rfl, rfl⟩

theorem witness_MixcolAndImixcolMultiplyEveryColumn : blockCol (withBlk counting).blk 3 = ⟨0x0C, 0x0D, 0x0E, 0x0F⟩ := rfl

theorem witness_ArkAddsTheRoundKey : (0 : BitVec 4).toNat < 11 ∧ (10 : BitVec 4).toNat < 11 ∧ (keyed counting).kv = true :=
  ⟨by decide, by decide, rfl⟩

/-- The rounds at the ends of the three clauses: 0; 1 and 9; 10. -/
theorem witness_RoundAndIroundRunOneRound :
    (keyed counting).kv = true ∧ (10 : BitVec 4).toNat < 11 ∧ (0 : BitVec 4).toNat = 0 ∧
      (1 ≤ (1 : BitVec 4).toNat ∧ (9 : BitVec 4).toNat ≤ 9) ∧ (10 : BitVec 4).toNat = 10 :=
  ⟨rfl, by decide, by decide, by decide, by decide⟩

theorem witness_EncbAndDecbRunAllRounds : (keyed counting).kv = true := rfl

/-- A message command with a full buffer, and a block command. -/
theorem witness_KeyedCommandsNeedAValidKey :
    (Instr.wf .ecbd = true ∧ readsRoundKeys .ecbd = true ∧ isMessageCommand .ecbd = true) ∧
      (Instr.wf (.ark 10) = true ∧ readsRoundKeys (.ark 10) = true ∧ isMessageCommand (.ark 10) = false) ∧
      { State.reset with mlen := 4096 }.kv = false ∧
      { State.reset with mlen := 4096 }.mlen.toNat ≤ { State.reset with mlen := 4096 }.params.mbufSize := by decide

/-- The longest message that PAD takes. -/
theorem witness_PadWritesThePadding :
    let s : State := { State.reset with mlen := 4095 }
    s.params.Valid ∧ s.mbuf.wf ∧ s.mlen.toNat + (16 - s.mlen.toNat % 16) ≤ s.params.mbufSize := by decide

/-- A message that is one full block of padding (PD-16); and the empty message, which has none. -/
theorem witness_UnpadValidatesAndShortens :
    let s := withMessage State.reset (List.replicate 16 0x10)
    (s.mlen.toNat ≤ s.params.mbufSize ∧
      (0 < s.mlen.toNat ∧ 1 ≤ (s.mbufByte (s.mlen.toNat - 1)).toNat ∧ (s.mbufByte (s.mlen.toNat - 1)).toNat ≤ 16 ∧
        (s.mbufByte (s.mlen.toNat - 1)).toNat ≤ s.mlen.toNat ∧
        ∀ a, a < s.mlen.toNat → (s.mbufByte a).toNat = 16)) ∧
      State.reset.mlen.toNat ≤ State.reset.params.mbufSize ∧ ¬0 < State.reset.mlen.toNat := by decide

/-- The longest message that encrypts. -/
theorem witness_EcbeAndCbceEncryptTheMessage :
    let s : State := { keyed Block.zero with mlen := 4095 }
    s.params.Valid ∧ s.mbuf.wf ∧ s.kv = true ∧ s.mlen.toNat + (16 - s.mlen.toNat % 16) ≤ s.params.mbufSize :=
  ⟨by decide, by decide, rfl, by decide⟩

/-- The shortest ciphertext: one block that decrypts to a full block of padding (MO-3). -/
def shortest : State := withMessage (keyed Block.zero) (blockBytesOf e10)

theorem witness_EcbdDecryptsTheMessage :
    shortest.mbuf.wf ∧ shortest.kv = true ∧ shortest.mlen.toNat ≤ shortest.params.mbufSize ∧
      shortest.mlen.toNat % 16 = 0 ∧ ecbDec shortest.rk shortest.message = some [] := by decide +kernel

/-- The ciphertext of MO-2. -/
def mo2 : List Byte := blockBytesOf cipherText ++
  [0x5F, 0x59, 0x17, 0xEC, 0x37, 0x6A, 0x3A, 0x26, 0x9E, 0xFA, 0xDB, 0x6B, 0x2D, 0x61, 0xE4, 0xE3]

/-- The same under the zero chaining value (MO-3), and the two-block ciphertext of MO-2. -/
theorem witness_CbcdDecryptsTheMessage :
    (shortest.mbuf.wf ∧ shortest.kv = true ∧ shortest.mlen.toNat ≤ shortest.params.mbufSize ∧
      shortest.mlen.toNat % 16 = 0 ∧ cbcDec shortest.rk shortest.message = some []) ∧
      (withMessage (keyed Block.zero) mo2).mbuf.wf ∧
      cbcDec (keyed Block.zero).rk (withMessage (keyed Block.zero) mo2).message = some (blockBytesOf plainText) := by
  decide +kernel

end Sys2Proof.Machine.Tests
end

section
/-! PROOFS. `CTRL` at all times, and reads that do not depend on the key (spec/10_state.md R29, R35). -/

namespace Sys2Proof.Machine

/-! ## `CTRL` -/

/-- A write to a target that accepts writes at all times does what the target does with it, busy or not (R71). -/
theorem hostWrite_of_not_frozen {s : State} {a : BusAddr} (t : Target) (d : Word) (h : target a = t)
    (hf : t.frozenByBusy = false) : hostWrite a d s = writeTarget t d s := by
  unfold hostWrite
  rw [h, hf, Bool.and_false]
  rfl

theorem hostWrite_ctrl {s : State} {a : BusAddr} (d : Word) (h : a.toNat / 4 = 0) : hostWrite a d s = writeCtrl d s :=
  hostWrite_of_not_frozen .ctrl d (target_ctrl h) rfl

theorem writeCtrl_of_not_srst {d : Word} (s : State) (h : d.getLsbD 1 = false) :
    writeCtrl d s = { s with ie := d.getLsbD 0 } := if_neg (Bool.eq_false_iff.mp h)

theorem writeCtrl_of_srst {d : Word} (s : State) (h : d.getLsbD 1 = true) : writeCtrl d s = s.softReset := if_pos h

theorem ctrlWord_eq (s : State) : ctrlWord s = if s.ie then 1 else 0 := by
  unfold ctrlWord
  cases s.ie <;> rfl

@[simp] theorem softReset_ie (s : State) : s.softReset.ie = false := by
  unfold State.softReset
  split <;> rfl

/-- Settles O24: `CTRL` reads are no draws and `CTRL` writes are never dropped, so `BUSY` plays no part. -/
theorem controlRegisterReadsAndWrites : Obligations.ControlRegisterReadsAndWrites := by
  intro s a d ha
  have hread : hostRead a s = { s with lastRead := some (ctrlWord s) } :=
    hostRead_of_value .ctrl (target_ctrl ha) (.inr rfl)
  rw [hostWrite_ctrl d ha, hread, ctrlWord_eq]
  refine ⟨rfl, rfl, writeCtrl_of_not_srst s, fun hsrst => ?_⟩
  rw [writeCtrl_of_srst s hsrst]
  exact ⟨rfl, softReset_ie s⟩

/-! ## Reads and the key -/

/-- A read of a write-only register is no draw, even while busy (R35). -/
theorem hostRead_cmd {s : State} {a : BusAddr} (h : a.toNat / 4 = 2) : hostRead a s = { s with lastRead := some 0 } :=
  hostRead_of_value .cmd (target_cmd h) (.inr rfl)

theorem hostRead_key {s : State} {a : BusAddr} (k : Fin 4) (h : a.toNat / 4 = 4 + k.val) :
    hostRead a s = { s with lastRead := some 0 } :=
  hostRead_of_value (.key k) (target_key h) (.inr rfl)

/-- What a target reads as is computed from neither `KEY` nor `RK`. -/
theorem readValue_with_key (s : State) (k : Block) (rk : RoundKeys) (t : Target) :
    readValue { s with key := k, rk := rk } t = readValue s t := by
  cases t <;> rfl

/-- A read commutes with replacing the key and the round keys. -/
theorem hostRead_with_key (s : State) (a : BusAddr) (k : Block) (rk : RoundKeys) :
    hostRead a { s with key := k, rk := rk } = { hostRead a s with key := k, rk := rk } := by
  unfold hostRead
  rw [readValue_with_key]
  dsimp only
  split <;> rfl

/-- Settles O32: `CMD` and `KEYk` read as the constant 0, and every read commutes with replacing the key. -/
theorem keyIsNeverReadable : Obligations.KeyIsNeverReadable := by
  intro s a
  refine ⟨?_, fun k rk => ?_⟩
  · rintro (hcmd | ⟨hlo, hhi⟩)
    · exact hostRead_cmd hcmd
    · exact hostRead_key ⟨a.toNat / 4 - 4, by omega⟩ (by dsimp only; omega)
  · rw [hostRead_with_key]

end Sys2Proof.Machine
end

section
/-! PROOFS. The host's address space: ignored address bits, inert words, and how `KEYk`, `BLKk` and the MBUF window pack bytes
(spec/20_memory.md R61 to R64). -/

namespace Sys2Proof.Machine

/-! ## Key and block words -/

theorem hostWrite_key {s : State} {a : BusAddr} (k : Fin 4) (d : Word) (hb : s.busy = false)
    (h : a.toNat / 4 = 4 + k.val) :
    hostWrite a d s = { s with key := blockSetCol s.key k (colOfWord d), kv := false } := by
  rw [hostWrite_of_idle a d hb, target_key h]
  rfl

theorem hostWrite_blk {s : State} {a : BusAddr} (k : Fin 4) (d : Word) (hb : s.busy = false)
    (h : a.toNat / 4 = 8 + k.val) :
    hostWrite a d s = { s with blk := blockSetCol s.blk k (colOfWord d) } := by
  rw [hostWrite_of_idle a d hb, target_blk h]
  rfl

theorem hostRead_blk {s : State} {a : BusAddr} (k : Fin 4) (hb : s.busy = false) (h : a.toNat / 4 = 8 + k.val) :
    hostRead a s = { s with lastRead := some (wordOfCol (blockCol s.blk k)) } :=
  hostRead_of_value (.blk k) (target_blk h) (.inl hb)

/-- The bus word of column `k` holds the Block's bytes `4k .. 4k+3`. -/
theorem wordOfCol_blockCol_byte (b : Block) {k : Fin 4} {i : Fin 16} (h : i.val / 4 = k.val) :
    (wordOfCol (blockCol b k)).extractLsb' (8 * (i.val % 4)) 8 = blockByte b i := by
  have hcol : (⟨i.val / 4, by omega⟩ : Fin 4) = k := Fin.ext h
  rw [blockByte, blockCell, hcol]
  exact wordOfCol_byte (blockCol b k) ⟨i.val % 4, Nat.mod_lt _ (by decide)⟩

/-- The four writes of R64 load its example key. -/
theorem hostWrite_exampleKey (s : State) (hb : s.busy = false) :
    blockBytesOf (hostWrite 0x1C 0x75462067 (hostWrite 0x18 0x6E754B20
        (hostWrite 0x14 0x796D2073 (hostWrite 0x10 0x74616854 s)))).key =
      [0x54, 0x68, 0x61, 0x74, 0x73, 0x20, 0x6D, 0x79, 0x20, 0x4B, 0x75, 0x6E, 0x67, 0x20, 0x46, 0x75] := by
  rw [hostWrite_key (a := 0x10) 0 _ hb rfl, hostWrite_key (a := 0x14) 1 _ (by exact hb) rfl,
    hostWrite_key (a := 0x18) 2 _ (by exact hb) rfl, hostWrite_key (a := 0x1C) 3 _ (by exact hb) rfl]
  rfl

/-- Settles O33: an idle write replaces column `k` by the word's bytes, and a read of `BLKk` is the word of that column. -/
theorem keyAndBlockWordsPackLittleEndian : Obligations.KeyAndBlockWordsPackLittleEndian := by
  intro s hb
  refine ⟨fun k a d ha => ?_, fun k a d ha => ?_, hostWrite_exampleKey s hb⟩
  · rw [hostWrite_key k d hb ha]
    exact ⟨blockSetCol_byte s.key k d, rfl⟩
  · rw [hostWrite_blk k d hb ha, hostRead_blk k hb ha]
    exact ⟨blockSetCol_byte s.blk k d, rfl, _, rfl, fun i hi => wordOfCol_blockCol_byte s.blk hi⟩

/-! ## The MBUF window -/

theorem hostRead_window {s : State} {a : BusAddr} {k : Nat} (hb : s.busy = false) (h : a.toNat / 4 = 0x4000 + k) :
    hostRead a s = { s with lastRead := some (windowWord s k) } :=
  hostRead_of_value (.window k) (target_window h) (.inl hb)

theorem hostWrite_window {s : State} {a : BusAddr} {k : Nat} (d : Word) (hb : s.busy = false)
    (h : a.toNat / 4 = 0x4000 + k) : hostWrite a d s = writeWindow k d s := by
  rw [hostWrite_of_idle a d hb, target_window h]
  rfl

/-- `MBUF_SIZE` is a multiple of the word size, so a window word never straddles the end of the buffer. -/
theorem windowWord_wholly_inside_or_outside {p : Params} (hp : p.Valid) (k : Nat) :
    4 * k < p.mbufSize ↔ 4 * k + 3 < p.mbufSize := by
  obtain ⟨hmod, -, -⟩ := hp
  omega

theorem windowInside_iff {s : State} {k : Nat} : windowInside s k = true ↔ 4 * k + 3 < s.params.mbufSize :=
  decide_eq_true_iff

theorem windowInside_of_outside {s : State} {k : Nat} (hk : s.params.mbufSize ≤ 4 * k) : ¬windowInside s k = true := by
  rw [windowInside_iff]
  omega

theorem windowWord_byte {s : State} {k : Nat} (hk : 4 * k + 3 < s.params.mbufSize) (j : Fin 4) :
    (windowWord s k).extractLsb' (8 * j.val) 8 = s.mbufByte (4 * k + j.val) := by
  rw [windowWord, if_pos (windowInside_iff.mpr hk), wordOfCol_byte]
  fin_cases j <;> rfl

theorem windowWord_of_outside {s : State} {k : Nat} (hk : s.params.mbufSize ≤ 4 * k) : windowWord s k = 0 :=
  if_neg (windowInside_of_outside hk)

theorem writeWindow_of_inside {s : State} {k : Nat} (d : Word) (hk : 4 * k + 3 < s.params.mbufSize) :
    writeWindow k d s = s.memWrite (4 * k) (colBytes (colOfWord d)) := if_pos (windowInside_iff.mpr hk)

theorem writeWindow_of_outside {s : State} {k : Nat} (d : Word) (hk : s.params.mbufSize ≤ 4 * k) :
    writeWindow k d s = s := if_neg (windowInside_of_outside hk)

@[simp] theorem colBytes_length (c : Col) : (colBytes c).length = 4 := rfl

theorem colBytes_colOfWord_getD (d : Word) (j : Fin 4) :
    (colBytes (colOfWord d)).getD j.val 0 = d.extractLsb' (8 * j.val) 8 := by
  fin_cases j <;> rfl

/-- A word written to the buffer from index `i` on reads back byte by byte. -/
theorem mbufByte_memWrite_word_inside {s : State} (hs : s.mbuf.wf) (i : Nat) (d : Word) (j : Fin 4) :
    (s.memWrite i (colBytes (colOfWord d))).mbufByte (i + j.val) = d.extractLsb' (8 * j.val) 8 := by
  rw [mbufByte_memWrite s hs, colBytes_length, if_pos (by omega), Nat.add_sub_cancel_left, colBytes_colOfWord_getD]

theorem memWrite_word_sameBufferOutside {s : State} (hs : s.mbuf.wf) (i : Nat) (d : Word) :
    SameBufferOutside i 4 s (s.memWrite i (colBytes (colOfWord d))) := by
  intro b hb
  rw [mbufByte_memWrite s hs, colBytes_length, if_neg (by omega)]

/-- Settles O35: inside the buffer a window access is a four-byte buffer access, outside it reads the constant 0 and writes
nothing. -/
theorem windowWordsMapTheBufferLittleEndian : Obligations.WindowWordsMapTheBufferLittleEndian := by
  intro s a d k hp hs hb ha
  rw [hostRead_window hb ha, hostWrite_window d hb ha]
  refine ⟨windowWord_wholly_inside_or_outside hp k, fun hin => ?_, fun hout => ?_⟩
  · rw [writeWindow_of_inside d hin]
    exact ⟨⟨_, rfl, windowWord_byte hin⟩, rfl, mbufByte_memWrite_word_inside hs (4 * k) d,
      memWrite_word_sameBufferOutside hs (4 * k) d⟩
  · rw [windowWord_of_outside hout, writeWindow_of_outside d hout]
    exact ⟨rfl, rfl⟩

/-! ## Ignored address bits -/

/-- Rounding an address down to its word does not change what it names. -/
theorem target_word_aligned (a : BusAddr) : target (BitVec.ofNat 17 (a.toNat - a.toNat % 4)) = target a := by
  have hword : wordIndex (BitVec.ofNat 17 (a.toNat - a.toNat % 4)) = wordIndex a := by
    have ha : a.toNat < 2 ^ 17 := a.isLt
    rw [wordIndex, wordIndex, BitVec.toNat_ofNat, Nat.mod_eq_of_lt (by omega)]
    omega
  rw [target, target, hword]

theorem hostRead_congr {a b : BusAddr} (s : State) (h : target a = target b) : hostRead a s = hostRead b s := by
  rw [hostRead, hostRead, h]

theorem hostWrite_congr {a b : BusAddr} (d : Word) (s : State) (h : target a = target b) :
    hostWrite a d s = hostWrite b d s := by
  rw [hostWrite, hostWrite, h]

theorem step_host {s : State} {x : BusAccess} {rest : List Input} (h : s.inputs = .host x :: rest) :
    step s = .next (hostAccess x { s with inputs := rest }) := by
  rw [step, h]

/-- Settles O26: an access depends on its address only through what the address names. -/
theorem lowAddressBitsAreIgnored : Obligations.LowAddressBitsAreIgnored := by
  intro s a d
  have hsame := (target_word_aligned a).symm
  exact ⟨hostRead_congr s hsame, hostWrite_congr d s hsame, fun _ _ h => ⟨_, step_host h⟩⟩

/-! ## Reserved and unmapped words -/

/-- Settles O31: neither kind of word has a value, a draw or a write effect, and a busy core does not record its writes. -/
theorem reservedAndUnmappedWordsAreInert : Obligations.ReservedAndUnmappedWordsAreInert := by
  intro s a d hlo hhi
  rcases target_inert (a := a) (by omega) (by omega) with ht | ht
  · exact ⟨hostRead_of_value .reserved ht (.inr rfl), hostWrite_of_not_frozen .reserved d ht rfl⟩
  · exact ⟨hostRead_of_value .unmapped ht (.inr rfl), hostWrite_of_not_frozen .unmapped d ht rfl⟩

end Sys2Proof.Machine
end

section
/-! PROOFS. Which command words are illegal, and what becomes of one (spec/30_encoding.md R90 to R96;
spec/45_control_commands.md R260, R264). -/

namespace Sys2Proof.Machine

/-! ## The fields of a command word as numbers -/

theorem opcodeField_toNat (w : Word) : (opcodeField w).toNat = w.toNat % 256 := by
  rw [opcodeField, BitVec.extractLsb'_toNat, Nat.shiftRight_zero]

theorem roundField_toNat (w : Word) : (roundField w).toNat = w.toNat / 256 % 16 := by
  rw [roundField, BitVec.extractLsb'_toNat, Nat.shiftRight_eq_div_pow]

/-- A field that reaches the top of the word is 0 exactly when the word is below the field's first bit. -/
theorem topField_eq_zero_iff (w : Word) {k n : Nat} (h : k + n = 32) : w.extractLsb' k n = 0#n ↔ w.toNat / 2 ^ k = 0 := by
  have hlt : w.toNat / 2 ^ k < 2 ^ n := by
    rw [Nat.div_lt_iff_lt_mul (Nat.two_pow_pos k), ← Nat.pow_add, Nat.add_comm n k, h]
    exact w.isLt
  rw [← BitVec.toNat_inj, BitVec.extractLsb'_toNat, Nat.shiftRight_eq_div_pow, Nat.mod_eq_of_lt hlt, BitVec.toNat_ofNat,
    Nat.zero_mod]

/-! ## What each format rejects -/

theorem decodeN_error_iff (w : Word) (i : Instr) : (∃ e, decodeN w i = .error e) ↔ w.toNat / 256 ≠ 0 := by
  have hres := topField_eq_zero_iff w (k := 8) (n := 24) rfl
  unfold decodeN
  split <;> simp_all

theorem decodeR_error_iff (w : Word) (f : BitVec 4 → Instr) :
    (∃ e, decodeR w f = .error e) ↔ w.toNat / 4096 ≠ 0 ∨ 11 ≤ w.toNat / 256 % 16 := by
  have hres := topField_eq_zero_iff w (k := 12) (n := 20) rfl
  have hround := roundIndexOk_iff (roundField w)
  rw [roundField_toNat] at hround
  unfold decodeR
  split
  · split <;> simp_all
  · simp_all

theorem decodeG_error_iff (w : Word) (f : Byte → Byte → Instr) :
    (∃ e, decodeG w f = .error e) ↔ w.toNat / 16777216 ≠ 0 := by
  have hres := topField_eq_zero_iff w (k := 24) (n := 8) rfl
  unfold decodeG
  split <;> simp_all

/-! ## The format of each opcode -/

/-- The opcodes that R94 assigns to a command without operands. -/
abbrev FormatNOpcode (op : Nat) : Prop :=
  op ≤ 0x03 ∨ 0x11 ≤ op ∧ op ≤ 0x16 ∨ op = 0x20 ∨ op = 0x21 ∨ 0x30 ≤ op ∧ op ≤ 0x33

/-- The opcodes that R94 assigns to a command with a round index. -/
abbrev FormatROpcode (op : Nat) : Prop := op = 0x10 ∨ op = 0x17 ∨ op = 0x18

/-- The opcode that R94 assigns to the command with two bytes. -/
abbrev FormatGOpcode (op : Nat) : Prop := op = 0x40

/-- How the decoder answers for a word: as one of the formats R91 to R93, by its opcode, or as an unassigned opcode. -/
inductive DecodesByFormat (w : Word) : Except Illegal Instr → Prop where
  | formatN (h : FormatNOpcode (w.toNat % 256)) (i : Instr) : DecodesByFormat w (decodeN w i)
  | formatR (h : FormatROpcode (w.toNat % 256)) (f : BitVec 4 → Instr) : DecodesByFormat w (decodeR w f)
  | formatG (h : FormatGOpcode (w.toNat % 256)) (f : Byte → Byte → Instr) : DecodesByFormat w (decodeG w f)
  | unassigned (hN : ¬FormatNOpcode (w.toNat % 256)) (hR : ¬FormatROpcode (w.toNat % 256))
      (hG : ¬FormatGOpcode (w.toNat % 256)) : DecodesByFormat w (.error .unassignedOpcode)

/-- The inversion lemma of the decoder: one case per row of R94 and one for all other opcodes. -/
theorem decode_byFormat (w : Word) : DecodesByFormat w (decode w) := by
  unfold decode
  rw [opcodeField_toNat]
  split
  -- rows 5, 12 and 13 are ARK, ROUND and IROUND, row 20 is GFMUL, and 21 is the decoder's last arm
  case h_5 | h_12 | h_13 => exact .formatR (by omega) _
  case h_20 => exact .formatG (by omega) _
  case h_21 =>
    simp only [imp_false] at *
    exact .unassigned (by omega) (by omega) (by omega)
  all_goals exact .formatN (by omega) _

/-! ## What becomes of an illegal word -/

/-- A `CMD` write to an idle core accepts its word, whatever the word is (R31, R260). -/
theorem hostWrite_cmd {s : State} {a : BusAddr} (w : Word) (hb : s.busy = false) (h : a.toNat / 4 = 2) :
    hostWrite a w s = acceptCommand w s := by
  rw [hostWrite_of_idle a w hb, target_cmd h]
  rfl

theorem completeWord_of_illegal {w : Word} {e : Illegal} (s : State) (h : decode w = .error e) :
    completeWord w s = .next (s.complete .illegal) := by
  rw [completeWord, h]
  rfl

theorem engineStep_of_pending {s : State} {w : Word} (h : s.pend = some w) : engineStep s = completeWord w s := by
  rw [engineStep, h]

/-- Settles O5: the listed numbers by the decoder's case for the word's opcode; the rest because neither acceptance nor an
illegal word's completion depends on the state. -/
theorem illegalWordsAreThoseListedAndOnlyReportIllegal : Obligations.IllegalWordsAreThoseListedAndOnlyReportIllegal := by
  intro w
  refine ⟨?_, fun e he => ⟨fun s a ha hb => hostWrite_cmd w hb ha, fun s hp => ?_⟩⟩
  · have hformat := decode_byFormat w
    simp only [List.mem_cons, List.not_mem_nil, or_false]
    generalize decode w = answer at hformat
    cases hformat with
    | formatN hop i =>
      rw [decodeN_error_iff]
      omega
    | formatR hop f =>
      rw [decodeR_error_iff]
      omega
    | formatG hop f =>
      rw [decodeG_error_iff]
      omega
    | unassigned hN hR hG => exact iff_of_true ⟨_, rfl⟩ (.inl (by omega))
  · rw [engineStep_of_pending hp, completeWord_of_illegal s he]
    rfl

end Sys2Proof.Machine
end

section
/-! PROOFS. Padding and unpadding of byte sequences (spec/40_buffer_and_padding.md R111 to R113). -/

namespace Sys2Proof.Machine

/-- A nonempty run of padding bytes ends the sequence with its padding byte. -/
theorem getLast?_append_padding (m : List Byte) {n : Nat} (b : Byte) (h : 1 ≤ n) :
    (m ++ List.replicate n b).getLast? = some b := by
  rw [List.getLast?_append, List.getLast?_replicate, if_neg (Nat.ne_of_gt h)]
  rfl

/-- `unpad` strips padding whose count, the last byte, is valid (R112). -/
theorem unpad_append_padding (m : List Byte) {n : Nat} (hlo : 1 ≤ n) (hhi : n ≤ 16) :
    unpad (m ++ List.replicate n (BitVec.ofNat 8 n)) = some m := by
  have hn : (BitVec.ofNat 8 n).toNat = n := by rw [BitVec.toNat_ofNat]; omega
  have hlen : (m ++ List.replicate n (BitVec.ofNat 8 n)).length = m.length + n := by simp
  rw [unpad_of_last _ _ (getLast?_append_padding m _ hlo), hn, hlen, if_neg (by omega), if_neg (by omega),
    Nat.add_sub_cancel, List.drop_left, List.take_left, if_pos (by simp)]

/-- Where `unpad` answers, the sequence is the answer followed by valid padding (R112). -/
theorem eq_append_padding_of_unpad {m m' : List Byte} (h : unpad m = some m') :
    ∃ n, 1 ≤ n ∧ n ≤ 16 ∧ m = m' ++ List.replicate n (BitVec.ofNat 8 n) := by
  cases hlast : m.getLast? with
  | none => simp [unpad, hlast] at h
  | some b =>
    rw [unpad_of_last m b hlast] at h
    split at h
    · contradiction
    split at h
    · contradiction
    split at h
    next hrange hfits hpadding =>
      have htail : m.drop (m.length - b.toNat) = List.replicate b.toNat b :=
        List.eq_replicate_iff.mpr ⟨by rw [List.length_drop]; omega, by simpa using hpadding⟩
      cases h
      refine ⟨b.toNat, by omega, by omega, ?_⟩
      rw [BitVec.ofNat_toNat, BitVec.setWidth_eq, ← htail, List.take_append_drop]
    · contradiction

/-- Settles O40: what `pad` appends is valid padding, and `unpad` answers only where it finds some. -/
theorem unpadUndoesPad : Obligations.UnpadUndoesPad := by
  intro m
  obtain ⟨hlo, hhi⟩ := padCount_pos m.length
  refine ⟨⟨?_, ?_, ?_⟩, unpad_append_padding m hlo hhi, fun m' h => ?_⟩
  · rw [pad_length, padded_mod]
  · rw [pad_length]; omega
  · rw [pad_length]; omega
  · obtain ⟨n, hn, hn', rfl⟩ := eq_append_padding_of_unpad h
    exact ⟨n, hn, hn', getLast?_append_padding m' _ hn, rfl⟩

end Sys2Proof.Machine
end

section
/-! PROOFS. The laws of multiplication in GF(2^8) (spec/41_block_transforms.md R131 to R134). -/

namespace Sys2Proof.Machine

/-! ## Multiplication by a power of 2 -/

theorem gmulLoop_xtime_left (n : Nat) (a b p : Byte) : gmulLoop n (xtime a) b (xtime p) = xtime (gmulLoop n a b p) := by
  induction n generalizing a b p with
  | zero => rfl
  | succ n ih =>
    rw [gmulLoop, gmulLoop, ← ih, apply_ite xtime, xtime_xor]

theorem gmul_xtime_left (a b : Byte) : gmul (xtime a) b = xtime (gmul a b) := gmulLoop_xtime_left 8 a b 0

/-- The loop of R133 meets the one set bit of `2^k` in turn `k`, after `k` doublings. -/
theorem gmul_powTwo (a : Byte) (k : Fin 8) : gmul a (1#8 <<< k.val) = xtime^[k.val] a := by
  fin_cases k <;> exact BitVec.zero_xor

theorem powTwo_eq_iterate_xtime (k : Fin 8) : 1#8 <<< k.val = xtime^[k.val] 1 := by
  decide +revert

theorem gmul_iterate_xtime_left (k : Nat) (a b : Byte) : gmul (xtime^[k] a) b = xtime^[k] (gmul a b) := by
  induction k with
  | zero => rfl
  | succ k ih => rw [Function.iterate_succ_apply', Function.iterate_succ_apply', gmul_xtime_left, ih]

/-! ## The laws -/

theorem gmul_zero (a : Byte) : gmul a 0 = 0 := rfl

theorem gmul_one (a : Byte) : gmul a 1 = a := gmul_powTwo a 0

theorem gmul_two (a : Byte) : gmul a 2 = xtime a := gmul_powTwo a 1

theorem gmul_three (a : Byte) : gmul a 3 = xtime a ^^^ a := by
  rw [show (3 : Byte) = 2 ^^^ 1 from rfl, gmul_xor_right, gmul_two, gmul_one]

theorem one_gmul (a : Byte) : gmul 1 a = a := by
  refine additive_ext (gmul 1) id (gmul_xor_right 1) (fun _ _ => rfl) (fun k => ?_) a
  rw [gmul_powTwo, ← powTwo_eq_iterate_xtime, id]

theorem gmul_comm (a b : Byte) : gmul a b = gmul b a := by
  refine additive_ext (gmul a) (gmul · a) (gmul_xor_right a) (gmul_xor_left · · a) (fun k => ?_) b
  rw [gmul_powTwo, powTwo_eq_iterate_xtime, gmul_iterate_xtime_left, one_gmul]

theorem gmul_iterate_xtime_right (k : Nat) (a b : Byte) : gmul a (xtime^[k] b) = xtime^[k] (gmul a b) := by
  rw [gmul_comm, gmul_iterate_xtime_left, gmul_comm]

theorem gmul_assoc (a b c : Byte) : gmul (gmul a b) c = gmul a (gmul b c) := by
  refine additive_ext (gmul (gmul a b)) (fun c => gmul a (gmul b c)) (gmul_xor_right _)
    (fun x y => by rw [gmul_xor_right, gmul_xor_right]) (fun k => ?_) c
  rw [gmul_powTwo, gmul_powTwo, gmul_iterate_xtime_right]

/-! ## Inverses -/

theorem gmul_inverse_unique {a y z : Byte} (hy : gmul a y = 1) (hz : gmul a z = 1) : z = y :=
  calc
    z = gmul (gmul a y) z := by rw [hy, one_gmul]
    _ = gmul y (gmul a z) := by rw [gmul_comm a y, gmul_assoc]
    _ = y := by rw [hz, gmul_one]

/-- The inverse of `affine` (R136): the rotations by 1, 3 and 6 invert its linear part, and `0x05` is the preimage of 0. -/
def invAffine (z : Byte) : Byte := z.rotateLeft 1 ^^^ z.rotateLeft 3 ^^^ z.rotateLeft 6 ^^^ 0x05

theorem affine_invAffine (z : Byte) : affine (invAffine z) = z := by
  decide +revert

/-- The S-box table as a table of inverses: without its affine transform the entry of a nonzero byte is an inverse of it. -/
theorem gmul_invAffine_sbox : ∀ x : Byte, x ≠ 0 → gmul x (invAffine (sbox x)) = 1 := by
  decide

/-- Settles O36: the product commutes with doubling and is additive, so the laws follow from its values at the powers of 2;
inverses are read off the S-box table. -/
theorem galoisMultiplicationLaws : Obligations.GaloisMultiplicationLaws := fun a b c =>
  ⟨gmul_comm a b, gmul_assoc a b c, gmul_xor_right a b c, gmul_zero a, gmul_one a, gmul_two a, gmul_three a,
    fun ha => ⟨_, gmul_invAffine_sbox a ha, fun _ hz => gmul_inverse_unique (gmul_invAffine_sbox a ha) hz⟩,
    by decide, by decide, by decide, by decide, by decide⟩

end Sys2Proof.Machine
end

section
/-! PROOFS. The inverse, the affine transform and the S-box tables (spec/41_block_transforms.md R135 to R138). -/

namespace Sys2Proof.Machine

/-! ## The inverse -/

/-- The search of R135 finds an inverse where there is one. -/
theorem gmul_gfInv {x y : Byte} (h : gmul x y = 1) : gmul x (gfInv x) = 1 := by
  unfold gfInv
  split
  next n hfound => simpa using List.find?_some hfound
  next hnone =>
    have hy := List.find?_eq_none.mp hnone y.toNat (List.mem_range.mpr y.isLt)
    simp [h] at hy

theorem eq_gfInv_of_gmul {x y : Byte} (h : gmul x y = 1) : y = gfInv x := gmul_inverse_unique (gmul_gfInv h) h

theorem gmul_eq_one_iff {x : Byte} (y : Byte) (hx : x ≠ 0) : gmul x y = 1 ↔ y = gfInv x := by
  refine ⟨eq_gfInv_of_gmul, ?_⟩
  rintro rfl
  exact gmul_gfInv (gmul_invAffine_sbox x hx)

theorem gfInv_zero : gfInv 0 = 0 := by
  unfold gfInv
  split
  next n hfound =>
    have hn := List.find?_some hfound
    rw [gmul_comm, gmul_zero] at hn
    contradiction
  next => rfl

/-! ## The affine transform -/

/-- Bit `i` of a left rotation by `k` is bit `i - k`, written `i + (8 - k)` mod 8. -/
theorem rotateLeft_bit (y : Byte) (k : Nat) (i : Fin 8) (h : k < 8) :
    (y.rotateLeft k).getLsbD i.val = y.getLsbD ((i.val + (8 - k)) % 8) := by
  rw [BitVec.getLsbD_rotateLeft, Nat.mod_eq_of_lt h]
  rcases Nat.lt_or_ge i.val k with hik | hik
  · rw [decide_eq_true hik, cond_true, Nat.mod_eq_of_lt (by omega), Nat.add_comm]
  · have hwrap : (i.val + (8 - k)) % 8 = i.val - k := by omega
    simp [hwrap, Nat.not_lt.mpr hik]

theorem affine_bit (y : Byte) (i : Fin 8) :
    (affine y).getLsbD i.val =
      (y.getLsbD i.val ^^ y.getLsbD ((i.val + 4) % 8) ^^ y.getLsbD ((i.val + 5) % 8) ^^ y.getLsbD ((i.val + 6) % 8) ^^
        y.getLsbD ((i.val + 7) % 8) ^^ (0x63 : Byte).getLsbD i.val) := by
  simp only [affine, BitVec.getLsbD_xor]
  rw [rotateLeft_bit y 4 i (by decide), rotateLeft_bit y 3 i (by decide), rotateLeft_bit y 2 i (by decide),
    rotateLeft_bit y 1 i (by decide)]

/-! ## The tables -/

theorem sbox_eq_affine_gfInv (x : Byte) : sbox x = affine (gfInv x) := by
  have hinv : invAffine (sbox x) = gfInv x := by
    by_cases hx : x = 0
    · rw [hx, gfInv_zero]
      rfl
    · exact eq_gfInv_of_gmul (gmul_invAffine_sbox x hx)
  rw [← hinv, affine_invAffine]

theorem sbox_no_fixed_or_opposite_point : ∀ x : Byte, sbox x ≠ x ∧ sbox x ≠ x ^^^ 0xFF := by decide

theorem invSbox_sbox : ∀ x : Byte, invSbox (sbox x) = x := by decide

theorem sbox_invSbox : ∀ x : Byte, sbox (invSbox x) = x := by decide

/-- Settles O37: a nonzero byte's inverse is unique, so the search finds the one that the S-box table holds. -/
theorem sboxIsTheAffineInverseAndInvSboxUndoesIt : Obligations.SboxIsTheAffineInverseAndInvSboxUndoesIt := by
  refine ⟨⟨gfInv_zero, (eq_gfInv_of_gmul (by decide)).symm, (eq_gfInv_of_gmul (by decide)).symm, by decide, by decide⟩,
    fun _ y hx => gmul_eq_one_iff y hx, affine_bit, fun x => ?_⟩
  obtain ⟨hfix, hopp⟩ := sbox_no_fixed_or_opposite_point x
  exact ⟨sbox_eq_affine_gfInv x, hfix, hopp, invSbox_sbox x, sbox_invSbox x⟩

end Sys2Proof.Machine
end

section
/-! PROOFS. The commands that rewrite `BLK` without a key (spec/41_block_transforms.md R139 to R142, R146 to R149). -/

namespace Sys2Proof.Machine

/-! ## How a block command ends -/

theorem complete_completedWith (s : State) (c : ErrCode) : (s.complete c).CompletedWith c := ⟨rfl, rfl, rfl, rfl⟩

/-- The frame of every committing block command. -/
theorem complete_onlyBlkChanges (s : State) (b : Block) : OnlyBlkChanges s ({ s with blk := b }.complete .ok) :=
  ⟨⟨rfl, rfl, rfl, rfl, rfl, rfl, rfl⟩, rfl, rfl, rfl, rfl, rfl, fun _ => rfl⟩

/-- A block command that needs no key completes from every state with `f(BLK)` in `BLK` (R146 to R151). -/
theorem transformBlk_completes (f : Block → Block) (s : State) :
    ∃ t, transformBlk f s = .next t ∧ t.blk = f s.blk ∧ OnlyBlkChanges s t ∧ t.CompletedWith .ok :=
  ⟨_, transformBlk_answer f s, rfl, complete_onlyBlkChanges s (f s.blk), complete_completedWith _ _⟩

/-! ## SubBytes and its inverse -/

theorem colGet_colMap (f : Byte → Byte) (c : Col) (r : Fin 4) : colGet (colMap f c) r = f (colGet c r) := by
  fin_cases r <;> rfl

theorem blockCol_blockMapCols (f : Col → Col) (b : Block) (c : Fin 4) :
    blockCol (blockMapCols f b) c = f (blockCol b c) := by
  fin_cases c <;> rfl

theorem blockByte_blockMapCols_colMap (f : Byte → Byte) (b : Block) (i : Fin 16) :
    blockByte (blockMapCols (colMap f) b) i = f (blockByte b i) := by
  rw [blockByte, blockCell, blockCol_blockMapCols, colGet_colMap]
  rfl

theorem blockByte_subBytes (b : Block) (i : Fin 16) : blockByte (subBytes b) i = sbox (blockByte b i) :=
  blockByte_blockMapCols_colMap sbox b i

theorem blockByte_invSubBytes (b : Block) (i : Fin 16) : blockByte (invSubBytes b) i = invSbox (blockByte b i) :=
  blockByte_blockMapCols_colMap invSbox b i

/-- Settles O46: both commands apply a bytewise function to `BLK`. -/
theorem subbAndIsubbSubstituteEveryByte : Obligations.SubbAndIsubbSubstituteEveryByte := by
  intro s
  constructor
  · obtain ⟨t, ht, hblk, hframe, hdone⟩ := transformBlk_completes subBytes s
    exact ⟨t, ht, fun i => by rw [hblk, blockByte_subBytes], hframe, hdone⟩
  · obtain ⟨t, ht, hblk, hframe, hdone⟩ := transformBlk_completes invSubBytes s
    exact ⟨t, ht, fun i => by rw [hblk, blockByte_invSubBytes], hframe, hdone⟩

/-! ## ShiftRows and its inverse -/

/-- The byte permutation of R141. -/
theorem blockBytesOf_shiftRows (b : Block) :
    blockBytesOf (shiftRows b) =
      [0, 5, 10, 15, 4, 9, 14, 3, 8, 13, 2, 7, 12, 1, 6, 11].map (blockByte b) := rfl

/-- The byte permutation of R142. -/
theorem blockBytesOf_invShiftRows (b : Block) :
    blockBytesOf (invShiftRows b) =
      [0, 13, 10, 7, 4, 1, 14, 11, 8, 5, 2, 15, 12, 9, 6, 3].map (blockByte b) := rfl

/-- Settles O47: both commands apply a permutation of the 16 bytes to `BLK`. -/
theorem shrowAndIshrowPermuteTheBytes : Obligations.ShrowAndIshrowPermuteTheBytes := by
  intro s b
  constructor
  · obtain ⟨t, ht, hblk, hframe, hdone⟩ := transformBlk_completes shiftRows s
    exact ⟨t, ht, by rw [hblk, blockBytesOf_shiftRows]; rfl, hframe, hdone⟩
  · obtain ⟨t, ht, hblk, hframe, hdone⟩ := transformBlk_completes invShiftRows s
    exact ⟨t, ht, by rw [hblk, blockBytesOf_invShiftRows]; rfl, hframe, hdone⟩

end Sys2Proof.Machine
end

section
/-! PROOFS. The key schedule and KEYEXP (spec/42_key_schedule.md R180 to R185). -/

namespace Sys2Proof.Machine

/-! ## One round of the schedule -/

/-- The round constants of R183 in order: round key `r + 1` uses the list's entry `r`. -/
theorem rcon_succ {r : Nat} (h : r < 10) :
    rcon (r + 1) = [0x01, 0x02, 0x04, 0x08, 0x10, 0x20, 0x40, 0x80, 0x1B, 0x36].getD r 0 := by
  interval_cases r <;> rfl

/-- The word `t` of R180, byte by byte: the rotation moves byte 1 to the front, and the round constant meets byte 0 alone. -/
theorem scheduleWord_eq (w : Col) (rc : Byte) :
    colXor (subWord (rotWord w)) ⟨rc, 0x00, 0x00, 0x00⟩ =
      ⟨sbox w.b1 ^^^ rc, sbox w.b2, sbox w.b3, sbox w.b0⟩ := by
  simp only [colXor, subWord, rotWord, colMap, BitVec.ofNat_eq_ofNat, BitVec.xor_zero]

theorem nextRoundKey_c0 (p : Block) (rc : Byte) :
    (nextRoundKey p rc).c0 = colXor p.c0 ⟨sbox p.c3.b1 ^^^ rc, sbox p.c3.b2, sbox p.c3.b3, sbox p.c3.b0⟩ :=
  congrArg (colXor p.c0) (scheduleWord_eq p.c3 rc)

theorem nextRoundKey_c1 (p : Block) (rc : Byte) :
    (nextRoundKey p rc).c1 = colXor p.c1 (nextRoundKey p rc).c0 := rfl

theorem nextRoundKey_c2 (p : Block) (rc : Byte) :
    (nextRoundKey p rc).c2 = colXor p.c2 (nextRoundKey p rc).c1 := rfl

theorem nextRoundKey_c3 (p : Block) (rc : Byte) :
    (nextRoundKey p rc).c3 = colXor p.c3 (nextRoundKey p rc).c2 := rfl

/-! ## The round-key file -/

theorem expand_getElem (key : Block) {r : Nat} (h : r < 11) : (expand key)[r] = roundKeyOf key r := by
  interval_cases r <;> rfl

theorem expand_zero (key : Block) : (expand key)[0] = key := rfl

/-- The recurrence of R180 in the file itself. -/
theorem expand_succ (key : Block) {r : Nat} (h : r < 10) :
    (expand key)[r + 1] = nextRoundKey (expand key)[r] (rcon (r + 1)) := by
  rw [expand_getElem, expand_getElem, roundKeyOf]

/-! ## KEYEXP -/

/-- The frame of KEYEXP. -/
theorem complete_onlyRoundKeysChange (s : State) (rk : RoundKeys) (kv : Bool) :
    OnlyRoundKeysChange s ({ s with rk := rk, kv := kv }.complete .ok) :=
  ⟨⟨rfl, rfl, rfl, rfl, rfl, rfl, rfl⟩, rfl, rfl, rfl, rfl, fun _ => rfl⟩

theorem exec_keyexp (s : State) :
    exec .keyexp s = .next ({ s with rk := expand s.key, kv := true }.complete .ok) := rfl

/-- Settles O45: the file KEYEXP leaves is `expand(KEY)`, whose consecutive entries are one round of the schedule apart. -/
theorem keyexpExpandsTheKey : Obligations.KeyexpExpandsTheKey := by
  intro s
  refine ⟨_, exec_keyexp s, rfl, expand_zero s.key, fun r h => ?_, complete_onlyRoundKeysChange s _ _,
    complete_completedWith _ _⟩
  simp only [complete_rk]
  rw [expand_succ s.key h, ← rcon_succ h]
  exact ⟨nextRoundKey_c0 _ _, nextRoundKey_c1 _ _, nextRoundKey_c2 _ _, nextRoundKey_c3 _ _⟩

end Sys2Proof.Machine
end

section
/-! PROOFS. The rounds, the block cipher as a chain of rounds, and the commands ROUND, IROUND, ENCB and DECB
(spec/43_round_pipeline.md R200 to R207). -/

namespace Sys2Proof.Machine

/-! ## How a keyed block command ends -/

/-- A block command that reads `RK` completes with `f(RK, BLK)` in `BLK` while `KV = 1` (R206, R207). -/
theorem transformBlkKeyed_completes (f : RoundKeys → Block → Block) {s : State} (hk : s.kv = true) :
    ∃ t, transformBlkKeyed f s = .next t ∧ t.blk = f s.rk s.blk ∧ OnlyBlkChanges s t ∧ t.CompletedWith .ok :=
  ⟨_, transformBlkKeyed_of_valid f hk, rfl, complete_onlyBlkChanges s (f s.rk s.blk), complete_completedWith _ _⟩

/-- A format R command with a round index in range completes as the keyed block command of that index (R204, R205). -/
theorem transformBlkRound_completes (f : Fin 11 → RoundKeys → Block → Block) {s : State} {r : BitVec 4}
    (h : r.toNat < 11) (hk : s.kv = true) :
    ∃ t, transformBlkRound f r s = .next t ∧ t.blk = f ⟨r.toNat, h⟩ s.rk s.blk ∧ OnlyBlkChanges s t ∧
      t.CompletedWith .ok := by
  rw [transformBlkRound_of_lt f s h]
  exact transformBlkKeyed_completes _ hk

/-! ## One round -/

theorem encRound_first (rk : RoundKeys) (b : Block) {r : Fin 11} (h : r.val = 0) :
    encRound rk b r = addRoundKey b rk[r] := if_pos (Fin.ext h)

theorem encRound_middle (rk : RoundKeys) (b : Block) {r : Fin 11} (h : 1 ≤ r.val ∧ r.val ≤ 9) :
    encRound rk b r = addRoundKey (mixColumns (shiftRows (subBytes b))) rk[r] := by
  rw [encRound, if_neg (by omega), if_neg (by omega)]

theorem encRound_last (rk : RoundKeys) (b : Block) {r : Fin 11} (h : r.val = 10) :
    encRound rk b r = addRoundKey (shiftRows (subBytes b)) rk[r] := by
  rw [encRound, if_neg (by omega), if_pos (Fin.ext h)]

theorem decRound_first (rk : RoundKeys) (b : Block) {r : Fin 11} (h : r.val = 0) :
    decRound rk b r = addRoundKey b rk[r] := if_pos (Fin.ext h)

theorem decRound_middle (rk : RoundKeys) (b : Block) {r : Fin 11} (h : 1 ≤ r.val ∧ r.val ≤ 9) :
    decRound rk b r = invSubBytes (invShiftRows (invMixColumns (addRoundKey b rk[r]))) := by
  rw [decRound, if_neg (by omega), if_neg (by omega)]

theorem decRound_last (rk : RoundKeys) (b : Block) {r : Fin 11} (h : r.val = 10) :
    decRound rk b r = invSubBytes (invShiftRows (addRoundKey b rk[r])) := by
  rw [decRound, if_neg (by omega), if_pos (Fin.ext h)]

/-- Settles O51: both commands are format R commands, and the three cases of the index are those of the round itself. -/
theorem roundAndIroundRunOneRound : Obligations.RoundAndIroundRunOneRound := by
  intro s r h hk
  constructor
  · obtain ⟨t, ht, hblk, hframe, hdone⟩ := transformBlkRound_completes (fun k rk b => encRound rk b k) h hk
    exact ⟨t, ht, fun h0 => hblk.trans (encRound_first _ _ h0), fun hm => hblk.trans (encRound_middle _ _ hm),
      fun hl => hblk.trans (encRound_last _ _ hl), hframe, hdone⟩
  · obtain ⟨t, ht, hblk, hframe, hdone⟩ := transformBlkRound_completes (fun k rk b => decRound rk b k) h hk
    exact ⟨t, ht, fun h0 => hblk.trans (decRound_first _ _ h0), fun hm => hblk.trans (decRound_middle _ _ hm),
      fun hl => hblk.trans (decRound_last _ _ hl), hframe, hdone⟩

/-! ## The block cipher as a chain of rounds -/

theorem roundOrder_take_succ :
    ∀ r : Fin 11, roundOrder.take (r.val + 1) = roundOrder.take r.val ++ [r] := by decide

theorem roundOrder_drop :
    ∀ r : Fin 11, roundOrder.drop r.val = r :: roundOrder.drop (r.val + 1) := by decide

/-- The Block after the rounds `0 .. n - 1` of `EncBlock` (R202). -/
def encChain (rk : RoundKeys) (b : Block) (n : Nat) : Block := (roundOrder.take n).foldl (encRound rk) b

/-- The Block after the inverse rounds `10, 9, .., n` of `DecBlock` (R203). -/
def decChain (rk : RoundKeys) (b : Block) (n : Nat) : Block := (roundOrder.drop n).reverse.foldl (decRound rk) b

theorem encChain_zero (rk : RoundKeys) (b : Block) : encChain rk b 0 = b := rfl

theorem encChain_succ (rk : RoundKeys) (b : Block) (r : Fin 11) :
    encChain rk b (r.val + 1) = encRound rk (encChain rk b r.val) r := by
  rw [encChain, roundOrder_take_succ, List.foldl_concat, encChain]

theorem encBlock_eq_encChain (rk : RoundKeys) (b : Block) : encBlock rk b = encChain rk b 11 := rfl

theorem decChain_eleven (rk : RoundKeys) (b : Block) : decChain rk b 11 = b := rfl

theorem decChain_step (rk : RoundKeys) (b : Block) (r : Fin 11) :
    decChain rk b r.val = decRound rk (decChain rk b (r.val + 1)) r := by
  rw [decChain, roundOrder_drop, List.reverse_cons, List.foldl_concat, decChain]

theorem decBlock_eq_decChain (rk : RoundKeys) (b : Block) : decBlock rk b = decChain rk b 0 := rfl

/-- Settles O52: the intermediate Blocks are those after the first rounds of the cipher's fold, in either direction. -/
theorem encbAndDecbRunAllRounds : Obligations.EncbAndDecbRunAllRounds := by
  intro s hk
  constructor
  · obtain ⟨t, ht, hblk, hframe, hdone⟩ := transformBlkKeyed_completes encBlock hk
    exact ⟨t, encChain s.rk s.blk, ht, encChain_zero _ _, encChain_succ _ _, hblk.trans (encBlock_eq_encChain _ _),
      hframe, hdone⟩
  · obtain ⟨t, ht, hblk, hframe, hdone⟩ := transformBlkKeyed_completes decBlock hk
    exact ⟨t, decChain s.rk s.blk, ht, decChain_eleven _ _, decChain_step _ _, hblk.trans (decBlock_eq_decChain _ _),
      hframe, hdone⟩

end Sys2Proof.Machine
end

section
/-! PROOFS. The inverse transforms undo the transforms, and the inverse cipher the cipher (spec/41_block_transforms.md R140,
R142, R144, R145; spec/43_round_pipeline.md R201, R203). -/

namespace Sys2Proof.Machine

/-! ## SubBytes, ShiftRows and AddRoundKey -/

theorem invSubBytes_subBytes (b : Block) : invSubBytes (subBytes b) = b := by
  simp only [invSubBytes, subBytes, blockMapCols, colMap, invSbox_sbox]

/-- Each cell moves along its row and back by as many columns. -/
theorem invShiftRows_shiftRows (b : Block) : invShiftRows (shiftRows b) = b := rfl

theorem colXor_cancel (a b : Col) : colXor (colXor a b) b = a := by
  simp only [colXor, BitVec.xor_assoc, BitVec.xor_self, BitVec.xor_zero]

theorem xor16_cancel (a b : Block) : xor16 (xor16 a b) b = a := by
  simp only [xor16, colXor_cancel]

theorem addRoundKey_cancel (b k : Block) : addRoundKey (addRoundKey b k) k = b := xor16_cancel b k

/-! ## MixColumns: the product of the matrices of R144 and R143 is the identity -/

/-- A matrix row times a matrix given by its rows. -/
def rowTimesMatrix (m : Col) (n : Fin 4 → Col) : Col :=
  ⟨rowTimesCol m ⟨(n 0).b0, (n 1).b0, (n 2).b0, (n 3).b0⟩, rowTimesCol m ⟨(n 0).b1, (n 1).b1, (n 2).b1, (n 3).b1⟩,
    rowTimesCol m ⟨(n 0).b2, (n 1).b2, (n 2).b2, (n 3).b2⟩, rowTimesCol m ⟨(n 0).b3, (n 1).b3, (n 2).b3, (n 3).b3⟩⟩

/-- Row `r` of the identity matrix. -/
def unitRow : Fin 4 → Col
  | 0 => ⟨1, 0, 0, 0⟩
  | 1 => ⟨0, 1, 0, 0⟩
  | 2 => ⟨0, 0, 1, 0⟩
  | 3 => ⟨0, 0, 0, 1⟩

theorem zero_gmul (a : Byte) : gmul 0 a = 0 := by rw [gmul_comm, gmul_zero]

/-- Matrix products are associative, by the laws of `•` and of XOR. -/
theorem rowTimesCol_matrixTimesCol (m : Col) (n : Fin 4 → Col) (a : Col) :
    rowTimesCol m (matrixTimesCol n a) = rowTimesCol (rowTimesMatrix m n) a := by
  simp only [rowTimesCol, matrixTimesCol, rowTimesMatrix, gmul_xor_right, gmul_xor_left, gmul_assoc]
  ac_rfl

theorem matrixTimesCol_matrixTimesCol (m n : Fin 4 → Col) (a : Col) :
    matrixTimesCol m (matrixTimesCol n a) = matrixTimesCol (fun r => rowTimesMatrix (m r) n) a := by
  rw [matrixTimesCol]
  simp only [rowTimesCol_matrixTimesCol]
  rfl

theorem matrixTimesCol_unitRow (a : Col) : matrixTimesCol unitRow a = a := by
  simp only [matrixTimesCol, rowTimesCol, unitRow, one_gmul, zero_gmul]
  simp only [BitVec.ofNat_eq_ofNat, BitVec.xor_zero, BitVec.zero_xor]

theorem invMixRow_times_mixRow : ∀ r : Fin 4, rowTimesMatrix (invMixRow r) mixRow = unitRow r := by decide

theorem invMixCol_mixCol (a : Col) : matrixTimesCol invMixRow (matrixTimesCol mixRow a) = a := by
  rw [matrixTimesCol_matrixTimesCol, funext invMixRow_times_mixRow, matrixTimesCol_unitRow]

theorem invMixColumns_mixColumns (b : Block) : invMixColumns (mixColumns b) = b := by
  simp only [invMixColumns, mixColumns, blockMapCols, invMixCol_mixCol]

/-! ## The rounds and the cipher -/

/-- A round's inverse takes its steps back, the last one first; which steps there are depends on the index alone. -/
theorem decRound_encRound (rk : RoundKeys) (b : Block) (r : Fin 11) : decRound rk (encRound rk b r) r = b := by
  rcases (by omega : r.val = 0 ∨ r.val = 10 ∨ 1 ≤ r.val ∧ r.val ≤ 9) with h | h | h
  · rw [encRound_first rk b h, decRound_first rk _ h, addRoundKey_cancel]
  · rw [encRound_last rk b h, decRound_last rk _ h, addRoundKey_cancel, invShiftRows_shiftRows, invSubBytes_subBytes]
  · rw [encRound_middle rk b h, decRound_middle rk _ h, addRoundKey_cancel, invMixColumns_mixColumns,
      invShiftRows_shiftRows, invSubBytes_subBytes]

/-- Inverse rounds in reverse order undo any sequence of rounds. -/
theorem foldl_decRound_reverse_foldl_encRound (rk : RoundKeys) (b : Block) (rs : List (Fin 11)) :
    rs.reverse.foldl (decRound rk) (rs.foldl (encRound rk) b) = b := by
  induction rs generalizing b with
  | nil => rfl
  | cons r rs ih => rw [List.foldl_cons, List.reverse_cons, List.foldl_concat, ih, decRound_encRound]

theorem decBlock_encBlock (rk : RoundKeys) (b : Block) : decBlock rk (encBlock rk b) = b :=
  foldl_decRound_reverse_foldl_encRound rk b roundOrder

end Sys2Proof.Machine
end

section
/-! PROOFS. The round trips of ECB and CBC over whole messages (spec/44_chaining_modes.md R230 to R233, R238). -/

namespace Sys2Proof.Machine

theorem map_decBlock_map_encBlock (rk : RoundKeys) (bs : List Block) :
    (bs.map (encBlock rk)).map (decBlock rk) = bs := by
  have hcancel : Function.LeftInverse (decBlock rk) (encBlock rk) := decBlock_encBlock rk
  rw [List.map_map, hcancel.comp_eq_id, List.map_id]

/-- Both loops carry the same ciphertext Block, so each XOR meets its like. -/
theorem cbcDecLoop_cbcEncLoop (rk : RoundKeys) (prev : Block) (bs : List Block) :
    cbcDecLoop rk prev (cbcEncLoop rk prev bs) = bs := by
  induction bs generalizing prev with
  | nil => rfl
  | cons b bs ih => rw [cbcEncLoop, cbcDecLoop, decBlock_encBlock, xor16_cancel, ih]

/-- A padded message is whole Blocks, so cutting it loses nothing (R111). -/
theorem bytesOfBlocks_blocks_pad (m : List Byte) : bytesOfBlocks (blocks (pad m)) = pad m :=
  bytesOfBlocks_blocks _ (by rw [pad_length, padded_mod])

theorem ecbDecBytes_ecbEnc (rk : RoundKeys) (m : List Byte) : ecbDecBytes rk (ecbEnc rk m) = pad m := by
  rw [ecbEnc, ecbDecBytes, blocks_bytesOfBlocks, map_decBlock_map_encBlock, bytesOfBlocks_blocks_pad]

theorem cbcDecBytes_cbcEnc (rk : RoundKeys) (m : List Byte) : cbcDecBytes rk (cbcEnc rk m) = pad m := by
  rw [cbcEnc, cbcDecBytes, blocks_bytesOfBlocks, cbcDecLoop_cbcEncLoop, bytesOfBlocks_blocks_pad]

theorem unpad_pad (m : List Byte) : unpad (pad m) = some m := by
  obtain ⟨-, hunpad, -⟩ := unpadUndoesPad m
  exact hunpad

theorem ecbDec_ecbEnc (rk : RoundKeys) (m : List Byte) : ecbDec rk (ecbEnc rk m) = some m := by
  rw [ecbDec, ecbDecBytes_ecbEnc, unpad_pad]

theorem cbcDec_cbcEnc (rk : RoundKeys) (m : List Byte) : cbcDec rk (cbcEnc rk m) = some m := by
  rw [cbcDec, cbcDecBytes_cbcEnc, unpad_pad]

/-- Settles O41: in both modes decryption recovers the padded message Block by Block, under any round-key file, and `unpad`
strips what `pad` appended. -/
theorem modesRoundTrip : Obligations.ModesRoundTrip := fun key m =>
  ⟨ecbDec_ecbEnc (expand key) m, cbcDec_cbcEnc (expand key) m⟩

end Sys2Proof.Machine
end

section
/-! PROOFS. What a command with an error leaves alone, and what a host write does to a command in progress
(spec/45_control_commands.md R260 to R262). -/

namespace Sys2Proof.Machine

/-! ## Completion -/

/-- Completing a command touches nothing outside its reach, whatever the code (R261). -/
theorem complete_sameControl {s d : State} (h : SameControl s d) (c : ErrCode) : SameControl s (d.complete c) := h

/-- Settles O12: a command commits data writes with the code `OK`, or completes its own starting state with an error. -/
theorem failedCommandChangesOnlyStatus : Obligations.FailedCommandChangesOnlyStatus := by
  intro i s t h
  rcases answer_cases (exec_answer i s) h with ⟨d, hd, rfl⟩ | ⟨c, -, rfl⟩
  · exact ⟨rfl, rfl, rfl, complete_sameControl (dataWrite_sameControl hd) .ok, fun hne => absurd rfl hne⟩
  · exact ⟨rfl, rfl, rfl, complete_sameControl (dataWrite_sameControl .nothing) c, fun _ => rfl⟩

/-! ## Host writes while a command is in progress -/

/-- A busy core drops a write to a frozen target and records the drop (R71). -/
theorem hostWrite_of_frozen {s : State} {a : BusAddr} (d : Word) (hb : s.busy = true)
    (hf : (target a).frozenByBusy = true) : hostWrite a d s = { s with ovr := true } := by
  rw [hostWrite, hb, hf]
  rfl

theorem hostWrite_status {s : State} {a : BusAddr} (d : Word) (h : a.toNat / 4 = 1) :
    hostWrite a d s = writeStatus d s :=
  hostWrite_of_not_frozen .status d (target_status h) rfl

theorem hostWrite_inert {s : State} {a : BusAddr} (d : Word) (hlo : 13 ≤ a.toNat / 4) (hhi : a.toNat / 4 < 0x4000) :
    hostWrite a d s = s := by
  obtain ⟨-, hwrite⟩ := reservedAndUnmappedWordsAreInert s a d (by omega) (by omega)
  exact hwrite

/-- A write to a busy core that is no soft reset writes at most `IE`, `DONE` and `OVR`. -/
theorem hostWrite_of_busy {s : State} {a : BusAddr} {d : Word} (hb : s.busy = true)
    (hreset : ¬(a.toNat / 4 = 0 ∧ d.getLsbD 1 = true)) :
    ∃ ie done ovr, hostWrite a d s = { s with ie := ie, done := done, ovr := ovr } := by
  have haddr : a.toNat / 4 = 0 ∨ a.toNat / 4 = 1 ∨ (2 ≤ a.toNat / 4 ∧ a.toNat / 4 ≤ 12 ∨ 0x4000 ≤ a.toNat / 4) ∨
      13 ≤ a.toNat / 4 ∧ a.toNat / 4 < 0x4000 := by omega
  rcases haddr with hctrl | hstatus | hfrozen | ⟨hlo, hhi⟩
  · have hsrst : d.getLsbD 1 = false := Bool.eq_false_iff.mpr fun h => hreset ⟨hctrl, h⟩
    exact ⟨_, s.done, s.ovr, (hostWrite_ctrl d hctrl).trans (writeCtrl_of_not_srst s hsrst)⟩
  · exact ⟨s.ie, _, _, hostWrite_status d hstatus⟩
  · exact ⟨s.ie, s.done, true, hostWrite_of_frozen d hb (target_frozen hfrozen)⟩
  · exact ⟨s.ie, s.done, s.ovr, hostWrite_inert d hlo hhi⟩

/-- Settles O8: `CMD` is a frozen target, and neither `PEND` nor any data register is among those a busy core lets a write
reach. -/
theorem commandWriteIsAcceptedOnlyWhenIdle : Obligations.CommandWriteIsAcceptedOnlyWhenIdle := by
  intro s
  refine ⟨fun a w hcmd => ⟨fun _ hb => hostWrite_cmd w hb hcmd, fun _ hb => ?_⟩, fun hb a d hreset => ?_⟩
  · exact hostWrite_of_frozen w hb (target_frozen (by omega))
  · obtain ⟨ie, done, ovr, hwrite⟩ := hostWrite_of_busy hb hreset
    rw [hwrite]
    exact ⟨⟨rfl, rfl, rfl, rfl, rfl, ⟨rfl, rfl⟩, rfl⟩, rfl⟩

end Sys2Proof.Machine
end

section
/-! PROOFS. The code a completion reports, and the interrupt output (spec/60_exceptions.md R301 to R303, R306, R307). -/

namespace Sys2Proof.Machine

/-! ## A word that decodes gives a well-formed command -/

theorem decodeN_ok {w : Word} {i j : Instr} (h : decodeN w i = .ok j) : j = i := by
  unfold decodeN at h
  split at h
  · exact (Except.ok.inj h).symm
  · contradiction

theorem decodeR_ok {w : Word} {f : BitVec 4 → Instr} {j : Instr} (h : decodeR w f = .ok j) :
    roundIndexOk (roundField w) = true ∧ j = f (roundField w) := by
  unfold decodeR at h
  split at h
  · split at h
    next hr => exact ⟨hr, (Except.ok.inj h).symm⟩
    · contradiction
  · contradiction

theorem decodeG_ok {w : Word} {f : Byte → Byte → Instr} {j : Instr} (h : decodeG w f = .ok j) :
    j = f (aField w) (bField w) := by
  unfold decodeG at h
  split at h
  · exact (Except.ok.inj h).symm
  · contradiction

/-- Only format R restricts its operand, and its decoder makes that check (R92, R95). -/
theorem wf_of_decode {w : Word} {i : Instr} (h : decode w = .ok i) : i.wf = true := by
  unfold decode at h
  split at h
  -- rows 5, 12 and 13 are ARK, ROUND and IROUND, row 20 is GFMUL, and 21 is the decoder's last arm
  case h_5 | h_12 | h_13 =>
    obtain ⟨hr, rfl⟩ := decodeR_ok h
    exact hr
  case h_20 =>
    rw [decodeG_ok h]
    rfl
  case h_21 => contradiction
  all_goals
    rw [decodeN_ok h]
    rfl

theorem completeWord_of_command {w : Word} {i : Instr} (s : State) (h : decode w = .ok i) :
    completeWord w s = exec i s := by
  rw [completeWord, h]

/-! ## The code of an answer, one check at a time -/

/-- The answer is a next state, and its `ERRCODE` is `c`. -/
def Reports (x : Answer) (c : ErrCode) : Prop := ∃ t, x = .next t ∧ t.errcode = c

theorem reports_commit (d : State) : Reports (commit d) .ok := ⟨_, rfl, rfl⟩

/-- An answer reports the first code of a list if it raises the first condition's code where that condition holds, and reports
the first code of the rest where it does not (R303). -/
theorem reports_cons {s : State} {x : Answer} {b : Bool} {c : ErrCode} {rest : List (Bool × ErrCode)}
    (hraise : b = true → x = .next (s.complete c)) (hpass : b = false → Reports x (firstCode rest)) :
    Reports x (firstCode ((b, c) :: rest)) := by
  cases b with
  | true => exact ⟨_, hraise rfl, rfl⟩
  | false => exact hpass rfl

section
variable {s : State} {k x : Answer} {c : ErrCode} {rest : List (Bool × ErrCode)}

/-- A condition that does not concern the command is passed over. -/
theorem reports_skip (h : Reports x (firstCode rest)) : Reports x (firstCode ((false, c) :: rest)) := h

theorem reports_withMessageSize (h : Reports k (firstCode rest)) :
    Reports (withMessageSize s k) (firstCode ((decide (s.mlen.toNat > s.params.mbufSize), .length) :: rest)) := by
  refine reports_cons (fun hb => withMessageSize_of_gt k (of_decide_eq_true hb)) fun hb => ?_
  rwa [withMessageSize_of_le k (Nat.not_lt.mp (of_decide_eq_false hb))]

theorem reports_withKey (h : Reports k (firstCode rest)) :
    Reports (withKey s k) (firstCode ((!s.kv, .noKey) :: rest)) := by
  refine reports_cons (fun hb => withKey_of_invalid k (by simpa using hb)) fun hb => ?_
  rwa [withKey_of_valid k (by simpa using hb)]

theorem reports_withWholeBlocks (h : Reports k (firstCode rest)) :
    Reports (withWholeBlocks s k) (firstCode ((decide (s.mlen.toNat % 16 ≠ 0), .length) :: rest)) := by
  refine reports_cons (fun hb => withWholeBlocks_of_not k (of_decide_eq_true hb)) fun hb => ?_
  rwa [withWholeBlocks_of_dvd k (not_not.mp (of_decide_eq_false hb))]

theorem reports_withPaddedRoom (h : Reports k (firstCode rest)) :
    Reports (withPaddedRoom s k)
      (firstCode ((decide (s.mlen.toNat + padCount s.mlen.toNat > s.params.mbufSize), .overflow) :: rest)) := by
  refine reports_cons (fun hb => withPaddedRoom_of_gt k (of_decide_eq_true hb)) fun hb => ?_
  rwa [withPaddedRoom_of_le k (Nat.not_lt.mp (of_decide_eq_false hb))]

/-- The last check of the commands that unpad: `PADDING` where `unpad` fails, else a commit (R112). -/
theorem reports_unpadding {m : List Byte} (hfail : unpad m = none → x = .next (s.complete .padding))
    (hcommit : ∀ m', unpad m = some m' → ∃ d, x = commit d) :
    Reports x (firstCode [((unpad m).isNone, .padding)]) := by
  refine reports_cons (fun hb => hfail (Option.isNone_iff_eq_none.mp hb)) fun hb => ?_
  obtain ⟨m', hm⟩ := Option.isSome_iff_exists.mp (Option.isNone_eq_false_iff.mp hb)
  obtain ⟨d, rfl⟩ := hcommit m' hm
  exact reports_commit d

end

/-! ## The code of a command -/

/-- The conditions of ENCB are those of every block command that reads `RK`. -/
theorem transformBlkKeyed_reports (f : RoundKeys → Block → Block) (s : State) :
    Reports (transformBlkKeyed f s) (firstCode (errorConditions .encb s)) :=
  reports_skip <| reports_withKey (reports_commit _)

theorem transformBlkRound_reports (f : Fin 11 → RoundKeys → Block → Block) {r : BitVec 4} (s : State)
    (h : roundIndexOk r = true) : Reports (transformBlkRound f r s) (firstCode (errorConditions .encb s)) := by
  rw [transformBlkRound_of_lt f s ((roundIndexOk_iff r).mp h)]
  exact transformBlkKeyed_reports _ s

/-- The conditions of ECBE are those of CBCE too. -/
theorem encryptMessage_reports (f : RoundKeys → List Byte → List Byte) (s : State) :
    Reports (encryptMessage f s) (firstCode (errorConditions .ecbe s)) :=
  reports_withMessageSize <| reports_withKey <| reports_skip <| reports_withPaddedRoom (reports_commit _)

theorem decryptMessage_reports (f : RoundKeys → List Byte → List Byte) (s : State) :
    Reports (decryptMessage f s)
      (firstCode [(decide (s.mlen.toNat > s.params.mbufSize), .length), (!s.kv, .noKey),
        (decide (s.mlen.toNat % 16 ≠ 0), .length), ((unpad (f s.rk s.message)).isNone, .padding)]) :=
  reports_withMessageSize <| reports_withKey <| reports_withWholeBlocks <|
    reports_unpadding (fun h => by rw [h]; rfl) (fun _ h => by rw [h]; exact ⟨_, rfl⟩)

theorem execUnpad_reports (s : State) : Reports (execUnpad s) (firstCode (errorConditions .unpad s)) :=
  reports_withMessageSize <| reports_skip <| reports_skip <| reports_skip <|
    reports_unpadding (fun h => by rw [h]; rfl) (fun _ h => by rw [h]; exact ⟨_, rfl⟩)

/-- A well-formed command makes the checks of R302 that concern it, in the order of R303. -/
theorem exec_reports {i : Instr} (h : i.wf = true) (s : State) :
    Reports (exec i s) (firstCode (errorConditions i s)) := by
  cases i with
  | nop | keyexp | subb | isubb | shrow | ishrow | mixcol | imixcol | gfmul => exact reports_commit _
  | encb | decb => exact transformBlkKeyed_reports _ s
  | ark r => exact transformBlkRound_reports (fun k rk b => addRoundKey b rk[k]) s h
  | round r => exact transformBlkRound_reports (fun k rk b => encRound rk b k) s h
  | iround r => exact transformBlkRound_reports (fun k rk b => decRound rk b k) s h
  | pad => exact reports_withMessageSize <| reports_skip <| reports_skip <| reports_withPaddedRoom (reports_commit _)
  | unpad => exact execUnpad_reports s
  | ecbe | cbce => exact encryptMessage_reports _ s
  | ecbd | cbcd => exact decryptMessage_reports _ s

/-- Settles O11: the command a word decodes to is well formed, so its checks are those of R302, in the order of R303. -/
theorem commandsReportTheFirstErrorThatHolds : Obligations.CommandsReportTheFirstErrorThatHolds := by
  intro w s
  cases hw : decode w with
  | error e => exact ⟨_, completeWord_of_illegal s hw, fun _ _ => rfl, nofun⟩
  | ok i =>
    obtain ⟨t, ht, hcode⟩ := exec_reports (wf_of_decode hw) s
    refine ⟨t, (completeWord_of_command s hw).trans ht, nofun, ?_⟩
    rintro j ⟨⟩
    exact hcode

/-! ## The interrupt output -/

theorem irq_iff (s : State) : s.irq = true ↔ s.ie = true ∧ s.done = true := Bool.and_eq_true_iff

theorem irq_of_disabled {s : State} (h : s.ie = false) : s.irq = false := by
  rw [State.irq, h, Bool.false_and]

theorem irq_of_not_done {s : State} (h : s.done = false) : s.irq = false := by
  rw [State.irq, h, Bool.and_false]

@[simp] theorem complete_irq (s : State) (c : ErrCode) : (s.complete c).irq = s.ie := Bool.and_true s.ie

/-- Whatever a command does, it sets `DONE` and keeps `IE` (R261). -/
theorem answer_irq {s t : State} {x : Answer} (h : CommandAnswer s x) (hx : x = .next t) : t.irq = s.ie := by
  rcases answer_cases h hx with ⟨d, hd, rfl⟩ | ⟨c, -, rfl⟩
  · obtain ⟨hie, -⟩ := dataWrite_sameControl hd
    rw [complete_irq, hie]
  · exact complete_irq s c

theorem writeStatus_done_of_bit {d : Word} (s : State) (h : d.getLsbD 1 = true) : (writeStatus d s).done = false := by
  simp [writeStatus, h]

theorem hostRead_irq (a : BusAddr) (s : State) : (hostRead a s).irq = s.irq := by
  obtain ⟨x, n, h, -⟩ := hostRead_eq a s
  rw [h]
  rfl

/-- Settles O25: a completion raises `DONE` and keeps `IE`; each listed write and each reset clears one of the two or sets `IE`;
a read writes neither. -/
theorem interruptOutputRisesAndFalls : Obligations.InterruptOutputRisesAndFalls := by
  intro s
  refine ⟨irq_iff s, fun i _ => answer_irq (exec_answer i s), fun w _ => answer_irq (completeWord_answer w s),
    fun a d ha hsrst => ?_, fun a d ha hsrst => ?_, fun a d ha hbit => ?_, fun a w ha hb => ?_, irq_of_disabled rfl,
    fun a => hostRead_irq a s⟩
  · rw [hostWrite_ctrl d ha, writeCtrl_of_not_srst s hsrst]
    rfl
  · rw [hostWrite_ctrl d ha, writeCtrl_of_srst s hsrst]
    exact irq_of_disabled (softReset_ie s)
  · rw [hostWrite_status d ha]
    exact irq_of_not_done (writeStatus_done_of_bit s hbit)
  · rw [hostWrite_cmd w hb ha]
    exact irq_of_not_done rfl

end Sys2Proof.Machine
end

section
/-! PROOFS. The decoder, the encoder and the opcode table agree on every word (spec/30_encoding.md R90 to R100). -/

namespace Sys2Proof.Machine

/-! ## From a command to its word and back -/

/-- Settles O2: command by command, the decoder finds in a command's word the opcode and the operands put there. -/
theorem encodeThenDecodeGivesTheCommand : Obligations.EncodeThenDecodeGivesTheCommand := by
  intro i
  cases i with
  | nop => exact Laws.RoundTrip.nop
  | keyexp => exact Laws.RoundTrip.keyexp
  | encb => exact Laws.RoundTrip.encb
  | decb => exact Laws.RoundTrip.decb
  | ark r => exact Laws.RoundTrip.ark r
  | subb => exact Laws.RoundTrip.subb
  | isubb => exact Laws.RoundTrip.isubb
  | shrow => exact Laws.RoundTrip.shrow
  | ishrow => exact Laws.RoundTrip.ishrow
  | mixcol => exact Laws.RoundTrip.mixcol
  | imixcol => exact Laws.RoundTrip.imixcol
  | round r => exact Laws.RoundTrip.round r
  | iround r => exact Laws.RoundTrip.iround r
  | pad => exact Laws.RoundTrip.pad
  | unpad => exact Laws.RoundTrip.unpad
  | ecbe => exact Laws.RoundTrip.ecbe
  | ecbd => exact Laws.RoundTrip.ecbd
  | cbce => exact Laws.RoundTrip.cbce
  | cbcd => exact Laws.RoundTrip.cbcd
  | gfmul a b => exact Laws.RoundTrip.gfmul a b

/-- Settles O1: the decoder evaluates each word. -/
theorem specWordsDecodeToTheirCommands : Obligations.SpecWordsDecodeToTheirCommands :=
  ⟨rfl, rfl, rfl, rfl, rfl, rfl, rfl, rfl, rfl, rfl, rfl, rfl⟩

/-! ## A word put together from its fields -/

theorem encodeR_fixedBits (w : Word) : encodeR (w &&& 0xFFFFF0FF) (roundField w) = w := by
  ext i hi
  interval_cases i <;> simp [encodeR, roundField]

theorem encodeG_fixedBits (w : Word) : encodeG (w &&& 0xFF0000FF) (aField w) (bField w) = w := by
  ext i hi
  interval_cases i <;> simp [encodeG, aField, bField]

theorem fixedBits_encodeG (a b : Byte) : encodeG 0x40 a b &&& 0xFF0000FF = 0x40 := by
  ext i hi
  interval_cases i <;> simp [encodeG]

/-- A field put above the bits of a word adds to its number. -/
theorem or_shiftLeft_toNat {lo : Word} {n k : Nat} (x : BitVec k) (hlo : lo.toNat < 2 ^ n) (hk : k + n ≤ 32) :
    (lo ||| x.setWidth 32 <<< n).toNat = x.toNat * 2 ^ n + lo.toNat := by
  have hx : x.toNat * 2 ^ n < 2 ^ 32 :=
    calc x.toNat * 2 ^ n < 2 ^ k * 2 ^ n := Nat.mul_lt_mul_of_pos_right x.isLt (Nat.two_pow_pos n)
      _ ≤ 2 ^ 32 := by rw [← Nat.pow_add]; exact Nat.pow_le_pow_right (by decide) hk
  have hx' : x.toNat < 2 ^ 32 := lt_of_le_of_lt (Nat.le_mul_of_pos_right _ (Nat.two_pow_pos n)) hx
  rw [BitVec.or_comm, BitVec.toNat_or, BitVec.toNat_shiftLeft, BitVec.toNat_setWidth, Nat.mod_eq_of_lt hx',
    Nat.shiftLeft_eq, Nat.mod_eq_of_lt hx, ← Nat.shiftLeft_eq, ← Nat.shiftLeft_add_eq_or_of_lt hlo]

theorem encodeR_toNat {op : Word} (r : BitVec 4) (hop : op.toNat < 256) :
    (encodeR op r).toNat = r.toNat * 256 + op.toNat := or_shiftLeft_toNat r hop (by decide)

theorem encodeG_toNat {op : Word} (a b : Byte) (hop : op.toNat < 256) :
    (encodeG op a b).toNat = b.toNat * 65536 + (a.toNat * 256 + op.toNat) := by
  have hlow : (op ||| a.setWidth 32 <<< 8).toNat = a.toNat * 256 + op.toNat := or_shiftLeft_toNat a hop (by decide)
  have ha : a.toNat < 256 := a.isLt
  rw [encodeG, or_shiftLeft_toNat b (by omega) (by decide), hlow]
  rfl

/-! ## From a word to its command and back -/

/-- A word that passes the check of format N is its opcode (R91). -/
theorem word_of_decodeN {w : Word} {i j : Instr} {op : Nat} (hop : (opcodeField w).toNat = op)
    (h : decodeN w i = .ok j) : w = BitVec.ofNat 32 op := by
  unfold decodeN at h
  split at h
  next hres =>
    rw [topField_eq_zero_iff w rfl] at hres
    rw [opcodeField_toNat] at hop
    exact BitVec.eq_of_toNat_eq (by rw [BitVec.toNat_ofNat]; omega)
  · contradiction

/-- A word that passes the checks of format R is its opcode and its round index (R92). -/
theorem word_of_decodeR {w : Word} {f : BitVec 4 → Instr} {j : Instr} {op : Nat} (hop : (opcodeField w).toNat = op)
    (h : decodeR w f = .ok j) : w = encodeR (BitVec.ofNat 32 op) (roundField w) := by
  unfold decodeR at h
  split at h
  next hres =>
    rw [topField_eq_zero_iff w rfl] at hres
    rw [opcodeField_toNat] at hop
    have hlt : (BitVec.ofNat 32 op).toNat = op := by rw [BitVec.toNat_ofNat]; omega
    refine BitVec.eq_of_toNat_eq ?_
    rw [encodeR_toNat _ (by omega), roundField_toNat]
    omega
  · contradiction

theorem word_of_decodeG {w : Word} {f : Byte → Byte → Instr} {j : Instr} {op : Nat} (hop : (opcodeField w).toNat = op)
    (h : decodeG w f = .ok j) : w = encodeG (BitVec.ofNat 32 op) (aField w) (bField w) := by
  unfold decodeG at h
  split at h
  next hres =>
    rw [topField_eq_zero_iff w rfl] at hres
    rw [opcodeField_toNat] at hop
    have hlt : (BitVec.ofNat 32 op).toNat = op := by rw [BitVec.toNat_ofNat]; omega
    refine BitVec.eq_of_toNat_eq ?_
    rw [encodeG_toNat _ _ (by omega), aField, bField, BitVec.extractLsb'_toNat, BitVec.extractLsb'_toNat,
      Nat.shiftRight_eq_div_pow, Nat.shiftRight_eq_div_pow]
    omega
  · contradiction

theorem encode_of_decode {w : Word} {i : Instr} (h : decode w = .ok i) : encode i = w := by
  unfold decode at h
  split at h
  -- rows 5, 12 and 13 are ARK, ROUND and IROUND, row 20 is GFMUL, and 21 is the decoder's last arm
  case h_5 hop | h_12 hop | h_13 hop =>
    obtain ⟨-, rfl⟩ := decodeR_ok h
    exact (word_of_decodeR hop h).symm
  case h_20 hop =>
    rw [decodeG_ok h]
    exact (word_of_decodeG hop h).symm
  case h_21 => contradiction
  all_goals
    rename_i hop
    rw [decodeN_ok h, word_of_decodeN hop h]
    rfl

/-- Settles O3: the word's format fixes every bit outside the opcode and the operands, and the operands are kept. -/
theorem decodedWordIsTheWordOfItsCommand : Obligations.DecodedWordIsTheWordOfItsCommand :=
  fun _ _ h => ⟨wf_of_decode h, encode_of_decode h⟩

/-! ## The opcode table -/

/-- The row of spec/opcode_table.json that a command belongs to. -/
def rowOf : Instr → OpcodeRow
  | .nop => rowN "NOP" 0x00
  | .keyexp => rowN "KEYEXP" 0x01
  | .encb => rowN "ENCB" 0x02
  | .decb => rowN "DECB" 0x03
  | .ark _ => rowR "ARK" 0x10
  | .subb => rowN "SUBB" 0x11
  | .isubb => rowN "ISUBB" 0x12
  | .shrow => rowN "SHROW" 0x13
  | .ishrow => rowN "ISHROW" 0x14
  | .mixcol => rowN "MIXCOL" 0x15
  | .imixcol => rowN "IMIXCOL" 0x16
  | .round _ => rowR "ROUND" 0x17
  | .iround _ => rowR "IROUND" 0x18
  | .pad => rowN "PAD" 0x20
  | .unpad => rowN "UNPAD" 0x21
  | .ecbe => rowN "ECBE" 0x30
  | .ecbd => rowN "ECBD" 0x31
  | .cbce => rowN "CBCE" 0x32
  | .cbcd => rowN "CBCD" 0x33
  | .gfmul _ _ => ⟨"GFMUL", 0xFF0000FF, 0x40, false⟩

theorem rowOf_mem (i : Instr) : rowOf i ∈ opcodeTable := by
  cases i <;> simp [rowOf, opcodeTable]

theorem rowOf_mnemonic (i : Instr) : (rowOf i).mnemonic = i.mnemonic := by
  cases i <;> rfl

theorem rowOf_takes {i : Instr} (h : i.wf = true) : (rowOf i).takes (encode i) = true := by
  cases i with
  | ark r | round r | iround r => revert r; decide
  | gfmul a b => exact congrArg (fun x => x == 0x40 && true) (fixedBits_encodeG a b)
  | _ => rfl

theorem word_of_rowN {m : String} {p w : Word} (h : (rowN m p).takes w = true) : p = w := by
  obtain ⟨hbits, -⟩ := Bool.and_eq_true_iff.mp h
  exact (eq_of_beq hbits).symm.trans BitVec.and_allOnes

theorem word_of_rowR {m : String} {p w : Word} (h : (rowR m p).takes w = true) :
    roundIndexOk (roundField w) = true ∧ encodeR p (roundField w) = w := by
  obtain ⟨hbits, hround⟩ := Bool.and_eq_true_iff.mp h
  have hfixed : w &&& 0xFFFFF0FF = p := eq_of_beq hbits
  exact ⟨hround, by rw [← hfixed, encodeR_fixedBits]⟩

/-- Each row takes only words of the commands that belong to it. -/
theorem command_of_row {row : OpcodeRow} {w : Word} (hrow : row ∈ opcodeTable) (h : row.takes w = true) :
    ∃ i : Instr, i.wf = true ∧ encode i = w ∧ i.mnemonic = row.mnemonic := by
  simp only [opcodeTable, List.mem_append, List.mem_cons, List.not_mem_nil, or_false, or_assoc] at hrow
  rcases hrow with rfl | rfl | rfl | rfl | rfl | rfl | rfl | rfl | rfl | rfl | rfl | rfl | rfl | rfl | rfl | rfl | rfl |
    rfl | rfl | rfl
  · exact ⟨.nop, rfl, word_of_rowN h, rfl⟩
  · exact ⟨.keyexp, rfl, word_of_rowN h, rfl⟩
  · exact ⟨.encb, rfl, word_of_rowN h, rfl⟩
  · exact ⟨.decb, rfl, word_of_rowN h, rfl⟩
  · obtain ⟨hround, hw⟩ := word_of_rowR h
    exact ⟨.ark (roundField w), hround, hw, rfl⟩
  · exact ⟨.subb, rfl, word_of_rowN h, rfl⟩
  · exact ⟨.isubb, rfl, word_of_rowN h, rfl⟩
  · exact ⟨.shrow, rfl, word_of_rowN h, rfl⟩
  · exact ⟨.ishrow, rfl, word_of_rowN h, rfl⟩
  · exact ⟨.mixcol, rfl, word_of_rowN h, rfl⟩
  · exact ⟨.imixcol, rfl, word_of_rowN h, rfl⟩
  · obtain ⟨hround, hw⟩ := word_of_rowR h
    exact ⟨.round (roundField w), hround, hw, rfl⟩
  · obtain ⟨hround, hw⟩ := word_of_rowR h
    exact ⟨.iround (roundField w), hround, hw, rfl⟩
  · exact ⟨.pad, rfl, word_of_rowN h, rfl⟩
  · exact ⟨.unpad, rfl, word_of_rowN h, rfl⟩
  · exact ⟨.ecbe, rfl, word_of_rowN h, rfl⟩
  · exact ⟨.ecbd, rfl, word_of_rowN h, rfl⟩
  · exact ⟨.cbce, rfl, word_of_rowN h, rfl⟩
  · exact ⟨.cbcd, rfl, word_of_rowN h, rfl⟩
  · obtain ⟨hbits, -⟩ := Bool.and_eq_true_iff.mp h
    have hfixed : w &&& 0xFF0000FF = 0x40 := eq_of_beq hbits
    exact ⟨.gfmul (aField w) (bField w), rfl, by rw [encode, ← hfixed, encodeG_fixedBits], rfl⟩

/-- Settles O4: a decoded word is its command's word, which the command's row takes; a word that a row takes is the word of a
well-formed command, which it then decodes to. -/
theorem decoderAgreesWithTheOpcodeTable : Obligations.DecoderAgreesWithTheOpcodeTable := by
  intro w
  refine ⟨fun i hi => ⟨rowOf i, rowOf_mem i, ?_, rowOf_mnemonic i⟩, fun row hrow htakes => ?_⟩
  · rw [← encode_of_decode hi]
    exact rowOf_takes (wf_of_decode hi)
  · obtain ⟨i, hwf, rfl, hname⟩ := command_of_row hrow htakes
    exact ⟨i, encodeThenDecodeGivesTheCommand i hwf, hname⟩

end Sys2Proof.Machine
end

section
/-! PROOFS. The invariant: every step keeps it, and every run ends with nothing pending (spec/45_control_commands.md R261;
spec/60_exceptions.md R308; spec/70_reset_and_hazards.md R351). -/

namespace Sys2Proof.Machine

/-! ## Steps -/

theorem step_of_no_input {s : State} (h : s.inputs = []) : step s = engineStep s := by
  rw [step, h]

theorem step_engine {s : State} {rest : List Input} (h : s.inputs = .engine :: rest) :
    step s = engineStep { s with inputs := rest } := by
  rw [step, h]

theorem step_powerOn {s : State} {rest : List Input} (h : s.inputs = .powerOn :: rest) :
    step s = .next { s with inputs := rest }.powerOnReset := by
  rw [step, h]

theorem engineStep_of_idle {s : State} (h : s.pend = none) : engineStep s = .next s := by
  rw [engineStep, h]

/-- A command's answer is a next state. -/
theorem answer_next {s : State} {x : Answer} (h : CommandAnswer s x) : ∃ t, x = .next t := by
  rcases h with ⟨d, -, hx⟩ | ⟨c, -, hx⟩
  · exact ⟨_, hx⟩
  · exact ⟨_, hx⟩

theorem engineStep_next (s : State) : ∃ t, engineStep s = .next t := by
  rcases engineStep_answer s with ⟨w, -, -, h⟩ | ⟨-, h⟩
  · exact answer_next h
  · exact ⟨s, h⟩

/-- Settles O7: each kind of step answers a next state, the engine's because every command's answer is one. -/
theorem everyStepAnswersANextState : Obligations.EveryStepAnswersANextState := by
  intro s
  rcases step_cases s with ⟨-, h⟩ | ⟨rest, -, h⟩ | ⟨a, rest, -, h⟩ | ⟨rest, -, h⟩
  · rw [h]; exact engineStep_next s
  · rw [h]; exact engineStep_next _
  · exact ⟨_, h⟩
  · exact ⟨_, h⟩

/-- Settles O6: the four kinds of step, and the engine's by what is pending. -/
theorem stepRunsTheDecodedCommand : Obligations.StepRunsTheDecodedCommand := by
  intro s rest
  refine ⟨fun w i hp hw => ⟨fun h => ?_, fun h => ?_⟩, fun w e hp hw => ⟨fun h => ?_, fun h => ?_⟩,
    fun hp => ⟨fun h => ?_, fun h => ?_⟩, fun x h => step_host h, step_powerOn⟩
  · rw [step_of_no_input h, engineStep_of_pending hp, completeWord_of_command s hw]
  · exact (step_engine h).trans ((engineStep_of_pending (by exact hp)).trans (completeWord_of_command _ hw))
  · exact (step_of_no_input h).trans ((engineStep_of_pending hp).trans (completeWord_of_illegal s hw))
  · exact (step_engine h).trans ((engineStep_of_pending (by exact hp)).trans (completeWord_of_illegal _ hw))
  · rw [step_of_no_input h, engineStep_of_idle hp]
  · exact (step_engine h).trans (engineStep_of_idle (by exact hp))

/-! ## What keeps the invariant -/

/-- Settles O19: nothing is written or pending at reset, and the reference size is legal (R7). -/
theorem resetStateMeetsTheInvariant : Obligations.ResetStateMeetsTheInvariant :=
  ⟨by decide, ⟨List.Pairwise.nil, nofun⟩, rfl, fun _ => rfl, nofun⟩

theorem memWrite_mbufOk {s : State} {lo : Nat} {v : List Byte} (hs : s.MbufOk) (hv : lo + v.length ≤ s.params.mbufSize) :
    (s.memWrite lo v).MbufOk := mbufOk_memWrite s lo v hs hv

/-- A command's data writes keep the buffer in form, and `RK` the expansion of `KEY` where `KV = 1`. -/
theorem dataWrite_keeps {s d : State} (h : DataWrite s d) (hbuf : s.MbufOk) (hkey : s.kv = true → s.rk = expand s.key) :
    d.MbufOk ∧ (d.kv = true → d.rk = expand d.key) := by
  cases h with
  | nothing | blk | gfr | length => exact ⟨hbuf, hkey⟩
  | roundKeys => exact ⟨hbuf, fun _ => rfl⟩
  | message lo v n hv => exact ⟨memWrite_mbufOk hbuf hv, hkey⟩

/-- A completion ends with nothing pending, whatever its code. -/
theorem complete_inv {d : State} (hp : d.params.Valid) (hbuf : d.MbufOk) (hkey : d.kv = true → d.rk = expand d.key)
    (c : ErrCode) : (d.complete c).Inv := ⟨hp, hbuf, rfl, nofun, hkey⟩

theorem answer_keeps_inv {s t : State} {x : Answer} (h : CommandAnswer s x) (hx : x = .next t) (hs : s.Inv) :
    t.Inv ∧ t.params = s.params := by
  obtain ⟨hp, hbuf, -, -, hkey⟩ := hs
  rcases answer_cases h hx with ⟨d, hd, rfl⟩ | ⟨c, -, rfl⟩
  · obtain ⟨-, -, hparams, -⟩ := dataWrite_sameControl hd
    obtain ⟨hbuf', hkey'⟩ := dataWrite_keeps hd hbuf hkey
    exact ⟨complete_inv (by rwa [hparams]) hbuf' hkey' .ok, hparams⟩
  · exact ⟨complete_inv hp hbuf hkey c, rfl⟩

theorem engineStep_keeps_inv {s t : State} (h : engineStep s = .next t) (hs : s.Inv) :
    t.Inv ∧ t.params = s.params := by
  rcases engineStep_answer s with ⟨w, -, -, hans⟩ | ⟨-, hidle⟩
  · exact answer_keeps_inv hans h hs
  · rw [hidle] at h
    cases h
    exact ⟨hs, rfl⟩

/-- Both resets leave the registers idle and without a valid key. -/
theorem resetRegisters_inv {s : State} (hs : s.Inv) : s.resetRegisters.Inv := by
  obtain ⟨hp, hbuf, -⟩ := hs
  exact ⟨hp, hbuf, rfl, nofun, nofun⟩

theorem drawMbuf_inv {s : State} (hs : s.Inv) : s.drawMbuf.Inv := by
  obtain ⟨hp, -, hrest⟩ := hs
  exact ⟨hp, ⟨List.Pairwise.nil, nofun⟩, hrest⟩

theorem softReset_keeps_inv {s : State} (hs : s.Inv) : s.softReset.Inv ∧ s.softReset.params = s.params := by
  unfold State.softReset
  split
  · exact ⟨drawMbuf_inv (resetRegisters_inv hs), rfl⟩
  · exact ⟨resetRegisters_inv hs, rfl⟩

theorem hostWrites_keep_inv {s t : State} (h : HostWrites s t) (hs : s.Inv) : t.Inv ∧ t.params = s.params := by
  obtain ⟨hp, hbuf, hbusy, hdone, hkey⟩ := id hs
  cases h with
  | nothing | dropped | ie | mlen | blk => exact ⟨hs, rfl⟩
  | softReset => exact softReset_keeps_inv hs
  | status d => exact ⟨⟨hp, hbuf, hbusy, fun h => by simp [writeStatus, hdone h], hkey⟩, rfl⟩
  | accepted _ w => exact ⟨⟨hp, hbuf, rfl, fun _ => rfl, hkey⟩, rfl⟩
  | key _ k => exact ⟨⟨hp, hbuf, hbusy, hdone, nofun⟩, rfl⟩
  | window _ k d hk => exact ⟨⟨hp, memWrite_mbufOk hbuf (by rw [colBytes_length]; omega), hbusy, hdone, hkey⟩, rfl⟩

theorem hostAccess_keeps_inv (x : BusAccess) {s : State} (hs : s.Inv) :
    (hostAccess x s).Inv ∧ (hostAccess x s).params = s.params := by
  cases x with
  | read a =>
    obtain ⟨v, n, h, -⟩ := hostRead_eq a s
    rw [hostAccess, h]
    exact ⟨hs, rfl⟩
  | write a d => exact hostWrites_keep_inv (hostWrite_writes a d s) hs

/-- Settles O20: the invariant speaks of no event, so taking one off the list keeps it; then by the kind of the step. -/
theorem everyStepKeepsTheInvariant : Obligations.EveryStepKeepsTheInvariant := by
  intro s t hs ht
  rcases step_cases s with ⟨-, h⟩ | ⟨rest, -, h⟩ | ⟨x, rest, -, h⟩ | ⟨rest, -, h⟩ <;> rw [h] at ht
  · exact engineStep_keeps_inv ht hs
  · exact engineStep_keeps_inv (s := { s with inputs := rest }) ht hs
  · cases ht
    exact hostAccess_keeps_inv x (s := { s with inputs := rest }) hs
  · cases ht
    exact ⟨drawMbuf_inv (resetRegisters_inv (s := { s with inputs := rest }) hs), rfl⟩

/-! ## Every run ends -/

theorem engineStep_inputs_pend {s t : State} (h : engineStep s = .next t) : t.inputs = s.inputs ∧ t.pend = none := by
  rcases engineStep_answer s with ⟨w, -, -, hans⟩ | ⟨hp, hidle⟩
  · rcases answer_cases hans h with ⟨d, hd, rfl⟩ | ⟨c, -, rfl⟩
    · obtain ⟨-, -, -, -, -, -, hin⟩ := dataWrite_sameControl hd
      exact ⟨hin, rfl⟩
    · exact ⟨rfl, rfl⟩
  · rw [hidle] at h
    cases h
    exact ⟨rfl, hp⟩

theorem hostAccess_inputs (x : BusAccess) (s : State) : (hostAccess x s).inputs = s.inputs := by
  cases x with
  | read a =>
    obtain ⟨v, n, h, -⟩ := hostRead_eq a s
    rw [hostAccess, h]
  | write a d =>
    show (hostWrite a d s).inputs = s.inputs
    have h := hostWrite_writes a d s
    generalize hostWrite a d s = t at h
    cases h with
    | softReset => unfold State.softReset; split <;> rfl
    | _ => rfl

/-- Each step takes one event off the list. -/
theorem step_inputs {s t : State} (ht : step s = .next t) : t.inputs = s.inputs.tail := by
  rcases step_cases s with ⟨hin, h⟩ | ⟨rest, hin, h⟩ | ⟨x, rest, hin, h⟩ | ⟨rest, hin, h⟩ <;> rw [h] at ht <;> rw [hin]
  · obtain ⟨h, -⟩ := engineStep_inputs_pend ht
    rw [h, hin]
    rfl
  · obtain ⟨h, -⟩ := engineStep_inputs_pend ht
    exact h
  · cases ht; exact hostAccess_inputs x _
  · cases ht; rfl

/-- Settles O9: the engine completes what is pending after the last event, and until then each step keeps the invariant. -/
theorem everyRunEndsWithNothingPending : Obligations.EveryRunEndsWithNothingPending := by
  intro s hs
  generalize hn : s.inputs.length = n
  induction n generalizing s with
  | zero =>
    have hin : s.inputs = [] := List.length_eq_zero_iff.mp hn
    obtain ⟨t, ht⟩ := everyStepAnswersANextState s
    obtain ⟨⟨-, -, hbusy, -⟩, -⟩ := everyStepKeepsTheInvariant s t hs ht
    obtain ⟨hrest, hp⟩ := engineStep_inputs_pend ((step_of_no_input hin).symm.trans ht)
    exact ⟨t, run_step 0 ht rfl, ⟨hrest.trans hin, hp⟩, by rw [hbusy, hp]; rfl⟩
  | succ n ih =>
    obtain ⟨t, ht⟩ := everyStepAnswersANextState s
    obtain ⟨hinv, -⟩ := everyStepKeepsTheInvariant s t hs ht
    obtain ⟨u, hu, hend⟩ := ih t hinv (by rw [step_inputs ht, List.length_tail, hn]; rfl)
    exact ⟨u, run_step (n + 1) ht hu, hend⟩

end Sys2Proof.Machine
end

section
/-! PROOFS. A command's result depends on the data state alone, and what `EXEC` of a word ends in (spec/30_encoding.md R99,
R101; spec/45_control_commands.md R261, R265). -/

namespace Sys2Proof.Machine

/-! ## The registers that no command reads -/

/-- The data state and the parameter of `s` under the flags, the pending word and the model's records of `c`. -/
def State.withControl (s c : State) : State :=
  { s with
    ie := c.ie
    busy := c.busy
    done := c.done
    ovr := c.ovr
    errcode := c.errcode
    pend := c.pend
    readDraws := c.readDraws
    lastRead := c.lastRead
    inputs := c.inputs }

/-- The same completion from a state with the control part of `c`. -/
def withControlAnswer (c : State) : Answer → Answer
  | .next t => .next ((t.withControl c).complete t.errcode)
  | .fault r => .fault r
  | .refused r => .refused r

section
variable (c : State)

/-- The operation `f` takes no notice of the control part of the state it runs from. -/
abbrev IgnoresControl (f : State → Answer) : Prop :=
  ∀ s, f (s.withControl c) = withControlAnswer c (f s)

theorem raiseError_ignoresControl (code : ErrCode) : IgnoresControl c (raiseError code) := fun _ => rfl

/-- A choice ignores the control part if its condition and both branches do. -/
theorem ite_ignoresControl {p : State → Prop} [DecidablePred p] {x y : State → Answer}
    (hp : ∀ s, p (s.withControl c) ↔ p s) (hx : IgnoresControl c x) (hy : IgnoresControl c y) :
    IgnoresControl c fun s => if p s then x s else y s := by
  intro s
  beta_reduce
  by_cases h : p s
  · rw [if_pos h, if_pos ((hp s).mpr h), hx s]
  · rw [if_neg h, if_neg (mt (hp s).mp h), hy s]

theorem transformBlkKeyed_ignoresControl (f : RoundKeys → Block → Block) : IgnoresControl c (transformBlkKeyed f) :=
  ite_ignoresControl c (fun _ => Iff.rfl) (fun _ => rfl) (raiseError_ignoresControl c .noKey)

theorem transformBlkRound_ignoresControl (f : Fin 11 → RoundKeys → Block → Block) (r : BitVec 4) :
    IgnoresControl c (transformBlkRound f r) := by
  intro s
  rcases Nat.lt_or_ge r.toNat 11 with h | h
  · rw [transformBlkRound_of_lt f _ h, transformBlkRound_of_lt f _ h, transformBlkKeyed_ignoresControl c]
  · rw [transformBlkRound_of_ge f _ h, transformBlkRound_of_ge f _ h]
    rfl

theorem withMessageSize_ignoresControl {k : State → Answer} (hk : IgnoresControl c k) :
    IgnoresControl c fun s => withMessageSize s (k s) :=
  ite_ignoresControl c (fun _ => Iff.rfl) (raiseError_ignoresControl c .length) hk

theorem withKey_ignoresControl {k : State → Answer} (hk : IgnoresControl c k) :
    IgnoresControl c fun s => withKey s (k s) :=
  ite_ignoresControl c (fun _ => Iff.rfl) hk (raiseError_ignoresControl c .noKey)

theorem withWholeBlocks_ignoresControl {k : State → Answer} (hk : IgnoresControl c k) :
    IgnoresControl c fun s => withWholeBlocks s (k s) :=
  ite_ignoresControl c (fun _ => Iff.rfl) hk (raiseError_ignoresControl c .length)

theorem withPaddedRoom_ignoresControl {k : State → Answer} (hk : IgnoresControl c k) :
    IgnoresControl c fun s => withPaddedRoom s (k s) :=
  ite_ignoresControl c (fun _ => Iff.rfl) (raiseError_ignoresControl c .overflow) hk

theorem encryptMessage_ignoresControl (f : RoundKeys → List Byte → List Byte) : IgnoresControl c (encryptMessage f) :=
  withMessageSize_ignoresControl c <| withKey_ignoresControl c <| withPaddedRoom_ignoresControl c fun _ => rfl

theorem decryptMessage_ignoresControl (f : RoundKeys → List Byte → List Byte) : IgnoresControl c (decryptMessage f) :=
  withMessageSize_ignoresControl c <| withKey_ignoresControl c <| withWholeBlocks_ignoresControl c fun s => by
    have hsame : f (s.withControl c).rk (s.withControl c).message = f s.rk s.message := rfl
    rw [hsame]
    cases unpad (f s.rk s.message) <;> rfl

theorem execUnpad_ignoresControl : IgnoresControl c execUnpad :=
  withMessageSize_ignoresControl c fun s => by
    have hsame : (s.withControl c).message = s.message := rfl
    rw [hsame]
    cases unpad s.message <;> rfl

theorem exec_ignoresControl (i : Instr) : IgnoresControl c (exec i) := by
  cases i with
  | nop | keyexp | subb | isubb | shrow | ishrow | mixcol | imixcol | gfmul => exact fun _ => rfl
  | encb | decb => exact transformBlkKeyed_ignoresControl c _
  | ark r => exact transformBlkRound_ignoresControl c (fun k rk b => addRoundKey b rk[k]) r
  | round r => exact transformBlkRound_ignoresControl c (fun k rk b => encRound rk b k) r
  | iround r => exact transformBlkRound_ignoresControl c (fun k rk b => decRound rk b k) r
  | pad => exact withMessageSize_ignoresControl c <| withPaddedRoom_ignoresControl c fun _ => rfl
  | unpad => exact execUnpad_ignoresControl c
  | ecbe | cbce => exact encryptMessage_ignoresControl c _
  | ecbd | cbcd => exact decryptMessage_ignoresControl c _

theorem completeWord_ignoresControl (w : Word) : IgnoresControl c (completeWord w) := by
  intro s
  cases hw : decode w with
  | ok i => rw [completeWord_of_command _ hw, completeWord_of_command _ hw, exec_ignoresControl]
  | error e =>
    rw [completeWord_of_illegal _ hw, completeWord_of_illegal _ hw]
    rfl

end

/-- A completion from the data state of `s` under any control part is that from `s`, data and code (R265). -/
theorem completion_withControl {c s t : State} {f : State → Answer} (hf : IgnoresControl c f) (ht : f s = .next t) :
    f (s.withControl c) = .next ((t.withControl c).complete t.errcode) := by
  rw [hf s, ht]
  rfl

/-- Settles O13: the flags are control registers, which no command reads. -/
theorem commandResultIgnoresTheStatusFlags : Obligations.CommandResultIgnoresTheStatusFlags := by
  intro i s ie done ovr code t ht
  exact ⟨_, completion_withControl (exec_ignoresControl { s with ie := ie, done := done, ovr := ovr, errcode := code } i) ht,
    ⟨rfl, rfl, rfl, rfl, rfl, ⟨rfl, rfl⟩, rfl⟩, rfl⟩

/-! ## `EXEC` -/

theorem hostAccess_read_status (s : State) :
    hostAccess (.read statusAddr) s = { s with lastRead := some (statusWord s) } :=
  hostRead_of_value .status (target_status rfl) (.inr rfl)

theorem programInputs_execLines (w : Word) (n : Nat) :
    programInputs (execLines w n) =
      .host (.write cmdAddr w) :: (List.replicate n (.host (.read statusAddr)) ++ [.engine, .host (.read statusAddr)]) :=
  congrArg (Input.host (.write cmdAddr w) :: ·) (List.append_nil _)

/-- Polls of `STATUS` change nothing but the record of the word read. -/
theorem run_polls (n k : Nat) (s : State) (rest : List Input) :
    ∃ x, Host.Core.run core (n + k)
        { s with inputs := List.replicate n (.host (.read statusAddr)) ++ rest } =
      Host.Core.run core k { s with inputs := rest, lastRead := x } := by
  induction n generalizing s with
  | zero => exact ⟨s.lastRead, by rw [Nat.zero_add]; rfl⟩
  | succ n ih =>
    obtain ⟨x, hx⟩ := ih { s with lastRead := some (statusWord s) }
    refine ⟨x, ?_⟩
    rw [Nat.add_right_comm]
    refine run_step (n + k) (step_host (by rfl)) ?_
    rw [hostAccess_read_status]
    exact hx

/-- What every completion of a word leaves: the code, and the control registers of a completed command (R261). -/
theorem completeWord_completes {w : Word} {s t : State} (h : completeWord w s = .next t) :
    SameControl s t ∧ t.CompletedWith t.errcode := by
  rcases answer_cases (completeWord_answer w s) h with ⟨d, hd, rfl⟩ | ⟨c, -, rfl⟩
  · exact ⟨complete_sameControl (dataWrite_sameControl hd) .ok, complete_completedWith d .ok⟩
  · exact ⟨complete_sameControl (dataWrite_sameControl .nothing) c, complete_completedWith s c⟩

/-- A completion passes the events to come and the record of the last read on. -/
theorem completeWord_with_inputs {w : Word} {s t : State} (ht : completeWord w s = .next t) (l : List Input)
    (x : Option Word) :
    completeWord w { s with inputs := l, lastRead := x } = .next { t with inputs := l, lastRead := x } := by
  obtain ⟨⟨hie, hovr, -, -, hdraws, -⟩, -, hbusy, hdone, hpend⟩ := completeWord_completes ht
  refine (completion_withControl (completeWord_ignoresControl { s with inputs := l, lastRead := x } w) ht).trans ?_
  simp only [State.withControl, State.complete, hie, hovr, hdraws, hbusy, hdone, hpend]

/-- The completion of the pending word and the poll after it. -/
theorem run_completion_poll {w : Word} {s t : State} (hp : s.pend = some w) (ht : completeWord w s = .next t)
    (x : Option Word) :
    Host.Core.run core 2 { s with inputs := [.engine, .host (.read statusAddr)], lastRead := x } =
      .next { t with inputs := [], lastRead := some (statusWord t) } := by
  refine run_step 1 ((step_engine (by rfl)).trans ((engineStep_of_pending (by exact hp)).trans
    (completeWord_with_inputs ht _ x))) ?_
  refine run_step 0 (step_host (by rfl)) ?_
  rw [hostAccess_read_status]
  rfl

/-- Settles O10: the write is accepted, the polls change nothing the completion reads, and the last poll comes after it. -/
theorem execLinesEndInTheCompletedState : Obligations.ExecLinesEndInTheCompletedState := by
  intro s w n hp hb
  obtain ⟨t, ht⟩ := answer_next (completeWord_answer w (acceptCommand w s))
  obtain ⟨⟨hie, hovr, -⟩, -, hbusy, hdone, hpend⟩ := completeWord_completes ht
  obtain ⟨x, hpolls⟩ := run_polls n 2 (acceptCommand w s) [.engine, .host (.read statusAddr)]
  refine ⟨t, { t with inputs := [], lastRead := some (statusWord t) }, ht, ?_, ⟨rfl, rfl, rfl, rfl, rfl, ⟨rfl, rfl⟩, rfl⟩,
    ⟨rfl, hbusy, hdone, hpend⟩, hie, hovr, rfl, rfl, hpend⟩
  rw [← run_completion_poll rfl ht x, ← hpolls]
  refine run_step (n + 2) (step_host (programInputs_execLines w n)) (congrArg _ ?_)
  exact hostWrite_cmd (a := cmdAddr) w hb rfl

end Sys2Proof.Machine
end

section
/-! PROOFS. Which commands, writes and resets change which register (spec/10_state.md R23 to R30; spec/20_memory.md R68;
spec/60_exceptions.md R305, R308). -/

namespace Sys2Proof.Machine

/-! ## What each kind of command writes -/

/-- The data writes of a command by its kind: `BLK` is no message command's, the length and the buffer are those of message
commands alone, and the round keys and `GFR` have one writer each. -/
inductive CommandWrites (s : State) : Instr → State → Prop where
  | nothing (i : Instr) : CommandWrites s i s
  | blk {i : Instr} (h : isMessageCommand i = false) (b : Block) : CommandWrites s i { s with blk := b }
  | keyexp : CommandWrites s .keyexp { s with rk := expand s.key, kv := true }
  | gfmul (a b : Byte) : CommandWrites s (.gfmul a b) { s with gfr := gmul a b }
  | message {i : Instr} (h : isMessageCommand i = true) (lo : Nat) (v : List Byte) (n : Nat)
      (hv : lo + v.length ≤ s.params.mbufSize) : CommandWrites s i ((s.memWrite lo v).setMlen n)

/-- The answer completes the data writes of a command. -/
def Writes (i : Instr) (s : State) (x : Answer) : Prop := ∃ d c, CommandWrites s i d ∧ x = .next (d.complete c)

section
variable {i : Instr} {s : State}

theorem writes_commit {d : State} (h : CommandWrites s i d) : Writes i s (commit d) := ⟨d, .ok, h, rfl⟩

theorem writes_raise (c : ErrCode) : Writes i s (raiseError c s) := ⟨s, c, .nothing i, rfl⟩

theorem writes_ite {p : Prop} [Decidable p] {x y : Answer} (hx : p → Writes i s x) (hy : ¬p → Writes i s y) :
    Writes i s (if p then x else y) := by
  split
  next h => exact hx h
  next h => exact hy h

theorem writes_keyed (f : RoundKeys → Block → Block) (h : isMessageCommand i = false) :
    Writes i s (transformBlkKeyed f s) :=
  writes_ite (fun _ => writes_commit (.blk h _)) fun _ => writes_raise .noKey

theorem writes_round (f : Fin 11 → RoundKeys → Block → Block) (r : BitVec 4) (h : isMessageCommand i = false) :
    Writes i s (transformBlkRound f r s) := by
  unfold transformBlkRound
  split
  · exact writes_keyed _ h
  · exact writes_raise .illegal

theorem writes_encrypt (f : RoundKeys → List Byte → List Byte)
    (hf : ∀ rk m, (f rk m).length = m.length + padCount m.length) (h : isMessageCommand i = true) :
    Writes i s (encryptMessage f s) :=
  writes_ite (fun _ => writes_raise .length) fun _ =>
    writes_ite (fun _ => writes_ite (fun _ => writes_raise .overflow) fun hfit =>
      writes_commit (.message h 0 _ _ (by rw [hf, message_length]; omega))) fun _ => writes_raise .noKey

theorem writes_decrypt (f : RoundKeys → List Byte → List Byte)
    (hf : ∀ rk c, (f rk c).length = 16 * (c.length / 16)) (h : isMessageCommand i = true) :
    Writes i s (decryptMessage f s) := by
  refine writes_ite (fun _ => writes_raise .length) fun hsize => writes_ite (fun _ => writes_ite (fun _ => ?_) fun _ =>
    writes_raise .length) fun _ => writes_raise .noKey
  split
  · exact writes_raise .padding
  · exact writes_commit (.message h 0 _ _ (by rw [hf, message_length]; omega))

theorem writes_pad : Writes .pad s (execPad s) :=
  writes_ite (fun _ => writes_raise .length) fun _ => writes_ite (fun _ => writes_raise .overflow) fun hfit =>
    writes_commit (.message rfl _ _ _ (by rw [padBytes_length]; omega))

theorem writes_unpad : Writes .unpad s (execUnpad s) := by
  refine writes_ite (fun _ => writes_raise .length) fun _ => ?_
  split
  · exact writes_raise .padding
  · exact writes_commit (.message rfl 0 [] _ (Nat.zero_le _))

end

/-- What any command can do, by its kind. -/
theorem exec_writes (i : Instr) (s : State) : Writes i s (exec i s) := by
  cases i with
  | nop => exact writes_commit (.nothing _)
  | keyexp => exact writes_commit .keyexp
  | gfmul a b => exact writes_commit (.gfmul a b)
  | subb | isubb | shrow | ishrow | mixcol | imixcol => exact writes_commit (.blk rfl _)
  | encb | decb => exact writes_keyed _ rfl
  | ark r => exact writes_round (fun k rk b => addRoundKey b rk[k]) r rfl
  | round r => exact writes_round (fun k rk b => encRound rk b k) r rfl
  | iround r => exact writes_round (fun k rk b => decRound rk b k) r rfl
  | pad => exact writes_pad
  | unpad => exact writes_unpad
  | ecbe => exact writes_encrypt _ ecbEnc_length rfl
  | cbce => exact writes_encrypt _ cbcEnc_length rfl
  | ecbd => exact writes_decrypt _ ecbDecBytes_length rfl
  | cbcd => exact writes_decrypt _ cbcDecBytes_length rfl

theorem exec_cases {i : Instr} {s t : State} (h : exec i s = .next t) :
    ∃ d c, CommandWrites s i d ∧ t = d.complete c := by
  obtain ⟨d, c, hd, hx⟩ := exec_writes i s
  rw [hx] at h
  cases h
  exact ⟨d, c, hd, rfl⟩

/-- Settles O14: by the kind of the command; a message command's bytes end inside the buffer. -/
theorem messageAndBlockCommandsKeepApart : Obligations.MessageAndBlockCommandsKeepApart := by
  intro i s t hs h
  obtain ⟨d, c, hd, rfl⟩ := exec_cases h
  cases hd with
  | nothing => exact ⟨fun _ => ⟨rfl, rfl, rfl, rfl, rfl, fun _ _ => rfl⟩, fun _ => ⟨rfl, fun _ => rfl⟩⟩
  | blk hi => exact ⟨fun hm => absurd (hi.symm.trans hm) (by decide), fun _ => ⟨rfl, fun _ => rfl⟩⟩
  | keyexp | gfmul => exact ⟨nofun, fun _ => ⟨rfl, fun _ => rfl⟩⟩
  | message hi lo v n hv =>
    refine ⟨fun _ => ⟨rfl, rfl, rfl, rfl, rfl, fun a ha => ?_⟩, fun hm => absurd (hi.symm.trans hm) (by decide)⟩
    rw [mbufByte_complete, mbufByte_setMlen, mbufByte_memWrite s hs, if_neg (by omega)]

/-! ## What a host write does, by its address -/

theorem hostWrite_mlen {s : State} {a : BusAddr} (d : Word) (hb : s.busy = false) (h : a.toNat / 4 = 3) :
    hostWrite a d s = { s with mlen := d.setWidth 16 } := by
  rw [hostWrite_of_idle a d hb, target_mlen h]
  rfl

theorem hostWrite_gfr {s : State} {a : BusAddr} (d : Word) (hb : s.busy = false) (h : a.toNat / 4 = 12) :
    hostWrite a d s = s := by
  rw [hostWrite_of_idle a d hb, target_gfr h]
  rfl

/-- What a write of `d` at `a` does: it resets the core, sets a flag, is dropped and recorded, is accepted as a command, writes
a key word, or writes at most the message side and `BLK`. -/
inductive WriteEffect (a : BusAddr) (d : Word) (s : State) : State → Prop where
  | reset (ha : a.toNat / 4 = 0) (hd : d.getLsbD 1 = true) : WriteEffect a d s s.softReset
  | ie (b : Bool) : WriteEffect a d s { s with ie := b }
  | status (ha : a.toNat / 4 = 1) : WriteEffect a d s (writeStatus d s)
  | dropped (hb : s.busy = true) (ha : 2 ≤ a.toNat / 4 ∧ a.toNat / 4 ≤ 12 ∨ 0x4000 ≤ a.toNat / 4) :
      WriteEffect a d s { s with ovr := true }
  | accepted (hb : s.busy = false) (ha : a.toNat / 4 = 2) : WriteEffect a d s (acceptCommand d s)
  | key (hb : s.busy = false) (hlo : 4 ≤ a.toNat / 4) (hhi : a.toNat / 4 ≤ 7) (k : Block) :
      WriteEffect a d s { s with key := k, kv := false }
  | data (n : BitVec 16) (b : Block) (m : Memory) : WriteEffect a d s { s with mlen := n, blk := b, mbuf := m }

/-- The writes that only an idle core takes. -/
theorem hostWrite_idle_effect {a : BusAddr} {s : State} (d : Word) (hb : s.busy = false)
    (ha : 2 ≤ a.toNat / 4 ∧ a.toNat / 4 ≤ 12 ∨ 0x4000 ≤ a.toNat / 4) : WriteEffect a d s (hostWrite a d s) := by
  have haddr : a.toNat / 4 = 2 ∨ a.toNat / 4 = 3 ∨ (4 ≤ a.toNat / 4 ∧ a.toNat / 4 ≤ 7) ∨
      (8 ≤ a.toNat / 4 ∧ a.toNat / 4 ≤ 11) ∨ a.toNat / 4 = 12 ∨ 0x4000 ≤ a.toNat / 4 := by omega
  rcases haddr with hcmd | hmlen | ⟨hlo, hhi⟩ | ⟨hlo, hhi⟩ | hgfr | hwin
  · rw [hostWrite_cmd d hb hcmd]
    exact .accepted hb hcmd
  · rw [hostWrite_mlen d hb hmlen]
    exact .data _ s.blk s.mbuf
  · rw [hostWrite_key ⟨a.toNat / 4 - 4, by omega⟩ d hb (by dsimp only; omega)]
    exact .key hb hlo hhi _
  · rw [hostWrite_blk ⟨a.toNat / 4 - 8, by omega⟩ d hb (by dsimp only; omega)]
    exact .data s.mlen _ s.mbuf
  · rw [hostWrite_gfr d hb hgfr]
    exact .data s.mlen s.blk s.mbuf
  · rw [hostWrite_window (k := a.toNat / 4 - 0x4000) d hb (by omega), writeWindow]
    split
    · exact .data s.mlen s.blk _
    · exact .data s.mlen s.blk s.mbuf

/-- The inversion lemma of a host write, by the word address. -/
theorem hostWrite_effect (a : BusAddr) (d : Word) (s : State) : WriteEffect a d s (hostWrite a d s) := by
  have haddr : a.toNat / 4 = 0 ∨ a.toNat / 4 = 1 ∨ (2 ≤ a.toNat / 4 ∧ a.toNat / 4 ≤ 12 ∨ 0x4000 ≤ a.toNat / 4) ∨
      13 ≤ a.toNat / 4 ∧ a.toNat / 4 < 0x4000 := by omega
  rcases haddr with hctrl | hstatus | hfrozen | ⟨hlo, hhi⟩
  · rw [hostWrite_ctrl d hctrl]
    cases hd : d.getLsbD 1 with
    | true => rw [writeCtrl_of_srst s hd]; exact .reset hctrl hd
    | false => rw [writeCtrl_of_not_srst s hd]; exact .ie _
  · rw [hostWrite_status d hstatus]
    exact .status hstatus
  · cases hb : s.busy with
    | true =>
      rw [hostWrite_of_frozen d hb (target_frozen hfrozen)]
      exact .dropped hb hfrozen
    | false => exact hostWrite_idle_effect d hb hfrozen
  · rw [hostWrite_inert d hlo hhi]
    exact .data s.mlen s.blk s.mbuf

/-! ## What a step does, by the event that is next -/

/-- What the step from `s` does: the engine waits or completes the pending word, the host reads or writes, or a power-on reset. -/
inductive StepEffect (s : State) : State → Prop where
  | waits (rest : List Input) : StepEffect s { s with inputs := rest }
  | illegal {w : Word} (turn : s.EngineTurn) (hp : s.pend = some w) (rest : List Input) :
      StepEffect s ({ s with inputs := rest }.complete .illegal)
  | command {w : Word} {i : Instr} {d : State} (turn : s.EngineTurn) (hp : s.pend = some w) (hw : decode w = .ok i)
      (rest : List Input) (hd : CommandWrites { s with inputs := rest } i d) (c : ErrCode) : StepEffect s (d.complete c)
  | read (rest : List Input) (x : Option Word) (n : Nat) :
      StepEffect s { s with inputs := rest, lastRead := x, readDraws := n }
  | write {a : BusAddr} {d : Word} {rest : List Input} {t : State} (hin : s.inputs = .host (.write a d) :: rest)
      (ht : WriteEffect a d { s with inputs := rest } t) : StepEffect s t
  | powerOn {rest : List Input} (hin : s.inputs = .powerOn :: rest) : StepEffect s { s with inputs := rest }.powerOnReset

theorem engineStep_effect {s t : State} (turn : s.EngineTurn) (rest : List Input)
    (h : engineStep { s with inputs := rest } = .next t) : StepEffect s t := by
  cases hp : s.pend with
  | none =>
    rw [engineStep_of_idle (by exact hp)] at h
    cases h
    exact .waits rest
  | some w =>
    rw [engineStep_of_pending (w := w) (by exact hp)] at h
    cases hw : decode w with
    | error e =>
      rw [completeWord_of_illegal _ hw] at h
      cases h
      exact .illegal turn hp rest
    | ok i =>
      rw [completeWord_of_command _ hw] at h
      obtain ⟨d, c, hd, rfl⟩ := exec_cases h
      exact .command turn hp hw rest hd c

/-- The inversion lemma of a step, by the word or the address it concerns. -/
theorem step_effect {s t : State} (h : step s = .next t) : StepEffect s t := by
  rcases step_cases s with ⟨hin, hs⟩ | ⟨rest, hin, hs⟩ | ⟨x, rest, hin, hs⟩ | ⟨rest, hin, hs⟩ <;> rw [hs] at h
  · exact engineStep_effect (.inl hin) s.inputs h
  · exact engineStep_effect (.inr ⟨rest, hin⟩) rest h
  · cases h
    cases x with
    | read a =>
      obtain ⟨v, n, hr, -⟩ := hostRead_eq a { s with inputs := rest }
      rw [hostAccess, hr]
      exact .read rest v n
    | write a d => exact .write hin (hostWrite_effect a d _)
  · cases h
    exact .powerOn hin

/-- A `CTRL` write with bit 1 set is a reset's turn. -/
theorem resetTurn_of_write {s : State} {a : BusAddr} {d : Word} {rest : List Input}
    (hin : s.inputs = .host (.write a d) :: rest) (ha : a.toNat / 4 = 0) (hd : d.getLsbD 1 = true) : s.ResetTurn :=
  .inr ⟨a, d, rest, hin, ha, hd⟩

/-- Settles O15: of the writes a step can make, only KEYEXP's, GFMUL's and a reset's reach these registers. -/
theorem onlyKeyexpAndGfmulAndResetsWriteTheirRegisters : Obligations.OnlyKeyexpAndGfmulAndResetsWriteTheirRegisters := by
  intro s t h
  cases step_effect h with
  | waits | illegal | read => exact ⟨absurd rfl, absurd rfl⟩
  | command turn hp hw rest hd c =>
    cases hd with
    | keyexp => exact ⟨fun _ => .inl ⟨_, hw, turn, hp, rfl⟩, absurd rfl⟩
    | gfmul a b => exact ⟨absurd rfl, fun _ => .inl ⟨_, a, b, hw, turn, hp, rfl⟩⟩
    | _ => exact ⟨absurd rfl, absurd rfl⟩
  | write hin ht =>
    cases ht with
    | reset ha hd =>
      have hreset := resetTurn_of_write hin ha hd
      exact ⟨fun _ => .inr hreset, fun _ => .inr hreset⟩
    | _ => exact ⟨absurd rfl, absurd rfl⟩
  | powerOn hin => exact ⟨fun _ => .inr (.inl ⟨_, hin⟩), fun _ => .inr (.inl ⟨_, hin⟩)⟩

/-! ## What changes a flag -/

theorem softReset_flags (s : State) : s.softReset.kv = false ∧ s.softReset.ovr = false ∧ s.softReset.done = false := by
  unfold State.softReset
  split <;> exact ⟨rfl, rfl, rfl⟩

theorem writeStatus_done_of_not_bit {d : Word} (s : State) (h : d.getLsbD 1 = false) :
    (writeStatus d s).done = s.done := by
  rw [writeStatus, h, Bool.not_false, Bool.and_true]

theorem writeStatus_ovr_of_not_bit {d : Word} (s : State) (h : d.getLsbD 3 = false) :
    (writeStatus d s).ovr = s.ovr := by
  rw [writeStatus, h, Bool.not_false, Bool.and_true]

theorem writeStatus_ovr_of_bit {d : Word} (s : State) (h : d.getLsbD 3 = true) : (writeStatus d s).ovr = false := by
  rw [writeStatus, h, Bool.not_true, Bool.and_false]

/-- A step that changes `KV` raises it by completing KEYEXP, or lowers it by an idle core's key write or a reset. -/
theorem kv_change {s t : State} (h : StepEffect s t) (hne : t.kv ≠ s.kv) :
    (t.kv = true ∧ ∃ w, decode w = .ok .keyexp ∧ CompletionStep s t w) ∨
      t.kv = false ∧
        ((∃ (a : BusAddr) (d : Word) (rest : List Input), s.inputs = .host (.write a d) :: rest ∧ s.busy = false ∧
          4 ≤ a.toNat / 4 ∧ a.toNat / 4 ≤ 7) ∨ s.ResetTurn) := by
  cases h with
  | waits | illegal | read => exact absurd rfl hne
  | command turn hp hw rest hd c =>
    cases hd with
    | keyexp => exact .inl ⟨rfl, _, hw, turn, hp, rfl⟩
    | _ => exact absurd rfl hne
  | write hin ht =>
    cases ht with
    | reset ha hd =>
      obtain ⟨hkv, -, -⟩ := softReset_flags _
      exact .inr ⟨hkv, .inr (resetTurn_of_write hin ha hd)⟩
    | key hb hlo hhi => exact .inr ⟨rfl, .inl ⟨_, _, _, hin, hb, hlo, hhi⟩⟩
    | _ => exact absurd rfl hne
  | powerOn hin => exact .inr ⟨rfl, .inr (.inl ⟨_, hin⟩)⟩

/-- A step that changes `OVR` raises it by a dropped write, or lowers it by a `STATUS` write of bit 3 or a reset. -/
theorem ovr_change {s t : State} (h : StepEffect s t) (hne : t.ovr ≠ s.ovr) :
    (t.ovr = true ∧
        ∃ (a : BusAddr) (d : Word) (rest : List Input), s.inputs = .host (.write a d) :: rest ∧ s.busy = true ∧
          (2 ≤ a.toNat / 4 ∧ a.toNat / 4 ≤ 12 ∨ 0x4000 ≤ a.toNat / 4)) ∨
      t.ovr = false ∧
        ((∃ (a : BusAddr) (d : Word) (rest : List Input), s.inputs = .host (.write a d) :: rest ∧ a.toNat / 4 = 1 ∧
          d.getLsbD 3 = true) ∨ s.ResetTurn) := by
  cases h with
  | waits | illegal | read => exact absurd rfl hne
  | command turn hp hw rest hd c => cases hd <;> exact absurd rfl hne
  | @write a d rest t hin ht =>
    cases ht with
    | reset ha hd =>
      obtain ⟨-, hovr, -⟩ := softReset_flags { s with inputs := rest }
      exact .inr ⟨hovr, .inr (resetTurn_of_write hin ha hd)⟩
    | status ha =>
      cases hd : d.getLsbD 3 with
      | false => exact absurd (writeStatus_ovr_of_not_bit _ hd) hne
      | true => exact .inr ⟨writeStatus_ovr_of_bit _ hd, .inl ⟨_, _, _, hin, ha, hd⟩⟩
    | dropped hb ha => exact .inl ⟨rfl, _, _, _, hin, hb, ha⟩
    | _ => exact absurd rfl hne
  | powerOn hin => exact .inr ⟨rfl, .inr (.inl ⟨_, hin⟩)⟩

/-- A step that changes `DONE` raises it by a completion, or lowers it by a `STATUS` write of bit 1, an acceptance or a
reset. -/
theorem done_change {s t : State} (h : StepEffect s t) (hne : t.done ≠ s.done) :
    (t.done = true ∧ ∃ w, CompletionStep s t w) ∨
      t.done = false ∧
        ((∃ (a : BusAddr) (d : Word) (rest : List Input), s.inputs = .host (.write a d) :: rest ∧
          (a.toNat / 4 = 1 ∧ d.getLsbD 1 = true ∨ a.toNat / 4 = 2 ∧ s.busy = false)) ∨ s.ResetTurn) := by
  cases h with
  | waits | read => exact absurd rfl hne
  | illegal turn hp | command turn hp => exact .inl ⟨rfl, _, turn, hp, rfl⟩
  | @write a d rest t hin ht =>
    cases ht with
    | reset ha hd =>
      obtain ⟨-, -, hdone⟩ := softReset_flags { s with inputs := rest }
      exact .inr ⟨hdone, .inr (resetTurn_of_write hin ha hd)⟩
    | status ha =>
      cases hd : d.getLsbD 1 with
      | false => exact absurd (writeStatus_done_of_not_bit _ hd) hne
      | true => exact .inr ⟨writeStatus_done_of_bit _ hd, .inl ⟨_, _, _, hin, .inl ⟨ha, hd⟩⟩⟩
    | accepted hb ha => exact .inr ⟨rfl, .inl ⟨_, _, _, hin, .inr ⟨ha, hb⟩⟩⟩
    | _ => exact absurd rfl hne
  | powerOn hin => exact .inr ⟨rfl, .inr (.inl ⟨_, hin⟩)⟩

/-- A flag whose changes are rises with the cause `P` and falls with the cause `Q` rises only by `P` and falls only by `Q`. -/
theorem rises_and_falls {b b' : Bool} {P Q : Prop} (h : b' ≠ b → b' = true ∧ P ∨ b' = false ∧ Q) :
    (b = false → b' = true → P) ∧ (b = true → b' = false → Q) := by
  constructor
  all_goals
    rintro rfl rfl
    simpa using h

/-- Settles O16: by what changes `KV`. -/
theorem keyValidRisesOnlyByKeyexpAndFallsOnlyByKeyWriteOrReset :
    Obligations.KeyValidRisesOnlyByKeyexpAndFallsOnlyByKeyWriteOrReset :=
  fun _ _ h => rises_and_falls (kv_change (step_effect h))

/-- Settles O17: by what changes `OVR`. -/
theorem overrunFlagIsSetByDroppedWritesAndStays : Obligations.OverrunFlagIsSetByDroppedWritesAndStays :=
  fun _ _ h => rises_and_falls (ovr_change (step_effect h))

/-- Settles O18: by what changes `DONE`. -/
theorem doneRisesOnlyAtCompletion : Obligations.DoneRisesOnlyAtCompletion :=
  fun _ _ h => rises_and_falls (done_change (step_effect h))

end Sys2Proof.Machine
end

section
/-! PROOFS. The transforms undo their inverses too, so each round and the cipher are permutations of Blocks
(spec/41_block_transforms.md R140 to R145; spec/43_round_pipeline.md R201, R203). -/

namespace Sys2Proof.Machine

theorem subBytes_invSubBytes (b : Block) : subBytes (invSubBytes b) = b := by
  simp only [invSubBytes, subBytes, blockMapCols, colMap, sbox_invSbox]

/-- Each cell moves back along its row and forth by as many columns. -/
theorem shiftRows_invShiftRows (b : Block) : shiftRows (invShiftRows b) = b := rfl

theorem mixRow_times_invMixRow : ∀ r : Fin 4, rowTimesMatrix (mixRow r) invMixRow = unitRow r := by decide

theorem mixCol_invMixCol (a : Col) : matrixTimesCol mixRow (matrixTimesCol invMixRow a) = a := by
  rw [matrixTimesCol_matrixTimesCol, funext mixRow_times_invMixRow, matrixTimesCol_unitRow]

theorem mixColumns_invMixColumns (b : Block) : mixColumns (invMixColumns b) = b := by
  simp only [invMixColumns, mixColumns, blockMapCols, mixCol_invMixCol]

/-- Settles O38: the tables are inverse permutations, rows turn back, the matrices are inverse, and XOR undoes itself. -/
theorem inverseTransformsUndoTheTransforms : Obligations.InverseTransformsUndoTheTransforms := fun b k =>
  ⟨invSubBytes_subBytes b, subBytes_invSubBytes b, invShiftRows_shiftRows b, shiftRows_invShiftRows b,
    invMixColumns_mixColumns b, mixColumns_invMixColumns b, addRoundKey_cancel b k⟩

/-- A round takes the steps of its inverse back, the last one first. -/
theorem encRound_decRound (rk : RoundKeys) (b : Block) (r : Fin 11) : encRound rk (decRound rk b r) r = b := by
  rcases (by omega : r.val = 0 ∨ r.val = 10 ∨ 1 ≤ r.val ∧ r.val ≤ 9) with h | h | h
  · rw [encRound_first rk _ h, decRound_first rk b h, addRoundKey_cancel]
  · rw [encRound_last rk _ h, decRound_last rk b h, subBytes_invSubBytes, shiftRows_invShiftRows, addRoundKey_cancel]
  · rw [encRound_middle rk _ h, decRound_middle rk b h, subBytes_invSubBytes, shiftRows_invShiftRows,
      mixColumns_invMixColumns, addRoundKey_cancel]

/-- Rounds undo any sequence of inverse rounds in reverse order. -/
theorem foldl_encRound_foldl_decRound_reverse (rk : RoundKeys) (b : Block) (rs : List (Fin 11)) :
    rs.foldl (encRound rk) (rs.reverse.foldl (decRound rk) b) = b := by
  induction rs with
  | nil => rfl
  | cons r rs ih => rw [List.reverse_cons, List.foldl_concat, List.foldl_cons, encRound_decRound, ih]

theorem encBlock_decBlock (rk : RoundKeys) (b : Block) : encBlock rk (decBlock rk b) = b :=
  foldl_encRound_foldl_decRound_reverse rk b roundOrder

/-- Settles O39: round by round, in either direction. -/
theorem blockCipherIsInvertible : Obligations.BlockCipherIsInvertible := fun rk b =>
  ⟨fun r => ⟨decRound_encRound rk b r, encRound_decRound rk b r⟩, decBlock_encBlock rk b, encBlock_decBlock rk b⟩

end Sys2Proof.Machine
end

section
/-! PROOFS. The message commands: their checks, what they write, and the round trip on the machine (spec/10_state.md R24;
spec/40_buffer_and_padding.md R111 to R115; spec/44_chaining_modes.md R230 to R237). -/

namespace Sys2Proof.Machine

/-! ## Commands without a valid key -/

theorem messageCommand_of_invalid {s : State} (k : Answer) (hl : s.mlen.toNat ≤ s.params.mbufSize) (hk : s.kv = false) :
    withMessageSize s (withKey s k) = .next (s.complete .noKey) := by
  rw [withMessageSize_of_le _ hl, withKey_of_invalid k hk]

theorem transformBlkRound_of_invalid (f : Fin 11 → RoundKeys → Block → Block) {r : BitVec 4} {s : State}
    (h : roundIndexOk r = true) (hk : s.kv = false) : transformBlkRound f r s = .next (s.complete .noKey) := by
  rw [transformBlkRound_of_lt f s ((roundIndexOk_iff r).mp h), transformBlkKeyed_of_invalid _ hk]

/-- Settles O53: the key check comes first in a block command, after the round index, and second in a message command. -/
theorem keyedCommandsNeedAValidKey : Obligations.KeyedCommandsNeedAValidKey := by
  intro i s hwf hreads hk hsize
  cases i with
  | nop | keyexp | subb | isubb | shrow | ishrow | mixcol | imixcol | pad | unpad | gfmul => contradiction
  | encb | decb => exact transformBlkKeyed_of_invalid _ hk
  | ark r => exact transformBlkRound_of_invalid (fun k rk b => addRoundKey b rk[k]) hwf hk
  | round r => exact transformBlkRound_of_invalid (fun k rk b => encRound rk b k) hwf hk
  | iround r => exact transformBlkRound_of_invalid (fun k rk b => decRound rk b k) hwf hk
  | ecbe | ecbd | cbce | cbcd => exact messageCommand_of_invalid _ (hsize rfl) hk

/-! ## The buffer after a message command -/

/-- The state in which a message command that wrote `v` from index `lo` on and set the length `n` completes. -/
def State.afterMessage (s : State) (lo : Nat) (v : List Byte) (n : Nat) : State :=
  ((s.memWrite lo v).setMlen n).complete .ok

section
variable {s : State} (lo : Nat) (v : List Byte) (n : Nat)

theorem afterMessage_completedWith : (s.afterMessage lo v n).CompletedWith .ok := complete_completedWith _ _

theorem afterMessage_mlen {n : Nat} (hn : n < 65536) : (s.afterMessage lo v n).mlen.toNat = n :=
  (BitVec.toNat_ofNat n 16).trans (Nat.mod_eq_of_lt hn)

theorem afterMessage_inside (hs : s.mbuf.wf) {a : Nat} (hlo : lo ≤ a) (hhi : a < lo + v.length) :
    (s.afterMessage lo v n).mbufByte a = v.getD (a - lo) 0 :=
  (mbufByte_memWrite s hs lo v a).trans (if_pos ⟨hlo, hhi⟩)

/-- The frame of every committing message command. -/
theorem afterMessage_onlyMessageChanges (hs : s.mbuf.wf) :
    OnlyMessageChanges lo v.length s (s.afterMessage lo v n) :=
  ⟨⟨rfl, rfl, rfl, rfl, rfl, rfl, rfl⟩, rfl, rfl, rfl, rfl, rfl, fun a ha =>
    (mbufByte_memWrite s hs lo v a).trans (if_neg (by omega))⟩

theorem memRead_afterMessage (hs : s.mbuf.wf) : (s.afterMessage 0 v n).memRead 0 v.length = v :=
  memRead_memWrite s hs v

end

/-- A read inside a longer read from index 0 on. -/
theorem memRead_eq_take_drop (s : State) {i n k : Nat} (h : i + n ≤ k) :
    s.memRead i n = ((s.memRead 0 k).drop i).take n := by
  refine List.ext_getElem (by simp; omega) fun j hj _ => ?_
  simp [State.memRead]

/-- Block `i` of the buffer is Block `i` of any longer read from index 0 on. -/
theorem blockOfBytes_memRead (s : State) {i k : Nat} (h : 16 * i + 16 ≤ k) :
    blockOfBytes (s.memRead (16 * i) 16) = blockOfBytes ((s.memRead 0 k).drop (16 * i)) := by
  rw [memRead_eq_take_drop s h, blockOfBytes_take _ 16 (le_refl 16)]

theorem blockOfBytes_message (s : State) {i : Nat} (h : 16 * i + 16 ≤ s.mlen.toNat) :
    blockOfBytes (s.memRead (16 * i) 16) = blockOfBytes (s.message.drop (16 * i)) := blockOfBytes_memRead s h

/-- The Blocks in the buffer after the bytes `v` were written from index 0 on are those of `v`. -/
theorem blockOfBytes_afterMessage {s : State} (hs : s.mbuf.wf) (v : List Byte) (n : Nat) {i : Nat}
    (h : 16 * i + 16 ≤ v.length) :
    blockOfBytes ((s.afterMessage 0 v n).memRead (16 * i) 16) = blockOfBytes (v.drop (16 * i)) := by
  rw [blockOfBytes_memRead _ h, memRead_afterMessage v n hs]

theorem message_afterMessage {s : State} (hs : s.mbuf.wf) (v : List Byte) {n : Nat} (hn : n < 65536) (h : n ≤ v.length) :
    (s.afterMessage 0 v n).message = v.take n := by
  rw [State.message, afterMessage_mlen 0 v hn, memRead_eq_take_drop _ (k := v.length) (by omega),
    memRead_afterMessage v n hs, List.drop_zero]

/-! ## PAD and UNPAD -/

/-- Settles O54: where it fits, PAD writes `padBytes` at the end of the message. -/
theorem padWritesThePadding : Obligations.PadWritesThePadding := by
  intro s hp hs n hfit
  have hlen : (padBytes s.mlen.toNat).length = n := padBytes_length _
  have ht : exec .pad s = .next (s.afterMessage s.mlen.toNat (padBytes s.mlen.toNat) (s.mlen.toNat + n)) := by
    show withMessageSize s _ = _
    rw [withMessageSize_of_le _ (by omega), withPaddedRoom_of_le _ hfit]
    rfl
  refine ⟨_, ht, afterMessage_mlen _ _ (by omega), fun a hlo hhi => ?_, ?_, afterMessage_completedWith _ _ _⟩
  · rw [afterMessage_inside _ _ _ hs hlo (by omega)]
    have hcount : padCount s.mlen.toNat = n := rfl
    exact List.getD_replicate _ (by omega)
  · rw [← hlen]
    exact afterMessage_onlyMessageChanges _ _ _ hs

theorem message_getLast? {s : State} (h : 0 < s.mlen.toNat) :
    s.message.getLast? = some (s.mbufByte (s.mlen.toNat - 1)) := by
  rw [List.getLast?_eq_getElem?, message_length]
  simp [State.message, State.memRead, h]

theorem message_drop_all {s : State} (k : Nat) (b : Byte) :
    (s.message.drop k).all (· == b) = true ↔ ∀ a, k ≤ a → a < s.mlen.toNat → s.mbufByte a = b := by
  have hdrop : s.message.drop k = s.memRead k (s.mlen.toNat - k) := by
    simp [State.message, State.memRead, ← List.map_drop, List.drop_range']
  rw [hdrop, State.memRead, List.all_map, List.all_eq_true]
  simp only [List.mem_range'_1, Function.comp_apply, beq_iff_eq]
  exact ⟨fun h a hlo hhi => h a ⟨hlo, by omega⟩, fun h a ⟨hlo, hhi⟩ => h a hlo (by omega)⟩

/-- The condition of R112 on the message in the buffer. -/
abbrev State.WellPadded (s : State) : Prop :=
  let n := (s.mbufByte (s.mlen.toNat - 1)).toNat
  0 < s.mlen.toNat ∧ 1 ≤ n ∧ n ≤ 16 ∧ n ≤ s.mlen.toNat ∧
    ∀ a, s.mlen.toNat - n ≤ a → a < s.mlen.toNat → (s.mbufByte a).toNat = n

theorem unpad_message_of_wellPadded {s : State} (h : s.WellPadded) :
    unpad s.message = some (s.message.take (s.mlen.toNat - (s.mbufByte (s.mlen.toNat - 1)).toNat)) := by
  obtain ⟨hpos, hlo, hhi, hfits, hall⟩ := h
  rw [unpad_of_last _ _ (message_getLast? hpos), message_length, if_neg (by omega), if_neg (by omega),
    if_pos ((message_drop_all _ _).mpr fun a ha ha' => BitVec.eq_of_toNat_eq (hall a ha ha'))]

theorem unpad_message_of_not_wellPadded {s : State} (h : ¬s.WellPadded) : unpad s.message = none := by
  rcases Nat.eq_zero_or_pos s.mlen.toNat with hzero | hpos
  · rw [List.length_eq_zero_iff.mp ((message_length s).trans hzero)]
    rfl
  · rw [unpad_of_last _ _ (message_getLast? hpos), message_length]
    split
    · rfl
    split
    · rfl
    rw [if_neg]
    intro hall
    rw [message_drop_all] at hall
    exact h ⟨hpos, by omega, by omega, by omega, fun a hlo hhi => congrArg BitVec.toNat (hall a hlo hhi)⟩

/-- Settles O55: UNPAD answers by what `unpad` finds in the message, and the bytes of the buffer stay. -/
theorem unpadValidatesAndShortens : Obligations.UnpadValidatesAndShortens := by
  intro s hl n good
  have hexec : exec .unpad s =
      match unpad s.message with
      | none => raiseError .padding s
      | some m => commit (s.setMlen m.length) := withMessageSize_of_le _ hl
  refine ⟨fun hgood => ?_, fun hbad => ?_⟩
  · rw [unpad_message_of_wellPadded hgood] at hexec
    refine ⟨_, hexec, ?_, ⟨⟨rfl, rfl, rfl, rfl, rfl, rfl, rfl⟩, rfl, rfl, rfl, rfl, rfl, fun _ _ => rfl⟩,
      complete_completedWith _ _⟩
    rw [complete_mlen, setMlen_mlen, List.length_take, message_length, BitVec.toNat_ofNat]
    omega
  · rw [hexec, unpad_message_of_not_wellPadded hbad]
    rfl

/-! ## Blocks of a ciphertext or a decrypted message -/

/-- Block `i` of a sequence whose Blocks were each mapped. -/
theorem blockOfBytes_map_blocks (f : Block → Block) (p : List Byte) {i : Nat} (h : i < p.length / 16) :
    blockOfBytes ((bytesOfBlocks ((blocks p).map f)).drop (16 * i)) = f (blockOfBytes (p.drop (16 * i))) := by
  refine blockOfBytes_drop_bytesOfBlocks _ _ _ ?_
  rw [List.getElem?_map, blocks, blocksOf_getElem? _ _ _ h]
  rfl

/-- Entry `i` of the chaining loop of encryption is the encryption of its Block XORed with the ciphertext Block before it. -/
theorem cbcEncLoop_getElem? (rk : RoundKeys) (prev : Block) (bs : List Block) {i : Nat} {b : Block}
    (h : bs[i]? = some b) :
    ∃ c, (prev :: cbcEncLoop rk prev bs)[i]? = some c ∧
      (cbcEncLoop rk prev bs)[i]? = some (encBlock rk (xor16 b c)) := by
  induction bs generalizing prev i with
  | nil => simp at h
  | cons x bs ih =>
    cases i with
    | zero =>
      cases h
      exact ⟨prev, rfl, rfl⟩
    | succ i => exact ih (encBlock rk (xor16 x prev)) h

theorem cbcDecLoop_getElem? (rk : RoundKeys) (prev : Block) (cs : List Block) {i : Nat} {c : Block}
    (h : cs[i]? = some c) :
    ∃ c', (prev :: cs)[i]? = some c' ∧ (cbcDecLoop rk prev cs)[i]? = some (xor16 (decBlock rk c) c') := by
  induction cs generalizing prev i with
  | nil => simp at h
  | cons x cs ih =>
    cases i with
    | zero =>
      cases h
      exact ⟨prev, rfl, rfl⟩
    | succ i => exact ih x h

/-- The chaining value for Block `i`: the initial value, or Block `i - 1` of the ciphertext. -/
theorem chainingValue_eq {prev c : Block} {cs : List Block} {i : Nat} (h : (prev :: cs)[i]? = some c) :
    c = if i = 0 then prev else blockOfBytes ((bytesOfBlocks cs).drop (16 * (i - 1))) := by
  cases i with
  | zero => exact (Option.some.inj h).symm
  | succ i => exact (blockOfBytes_drop_bytesOfBlocks cs i c h).symm

theorem blockOfBytes_cbcEnc (rk : RoundKeys) (m : List Byte) {i : Nat} (h : i < (pad m).length / 16) :
    blockOfBytes ((cbcEnc rk m).drop (16 * i)) =
      encBlock rk (xor16 (blockOfBytes ((pad m).drop (16 * i)))
        (if i = 0 then Block.zero else blockOfBytes ((cbcEnc rk m).drop (16 * (i - 1))))) := by
  obtain ⟨c, hc, hi⟩ := cbcEncLoop_getElem? rk Block.zero (blocks (pad m)) (blocksOf_getElem? _ (pad m) i h)
  rw [cbcEnc, ← chainingValue_eq hc]
  exact blockOfBytes_drop_bytesOfBlocks _ _ _ hi

theorem blockOfBytes_cbcDecBytes (rk : RoundKeys) {c : List Byte} (hc : c.length % 16 = 0) {i : Nat}
    (h : i < c.length / 16) :
    blockOfBytes ((cbcDecBytes rk c).drop (16 * i)) =
      xor16 (decBlock rk (blockOfBytes (c.drop (16 * i))))
        (if i = 0 then Block.zero else blockOfBytes (c.drop (16 * (i - 1)))) := by
  obtain ⟨c', hc', hi⟩ := cbcDecLoop_getElem? rk Block.zero (blocks c) (blocksOf_getElem? _ c i h)
  have hchain := chainingValue_eq hc'
  rw [bytesOfBlocks_blocks c hc] at hchain
  rw [← hchain]
  exact blockOfBytes_drop_bytesOfBlocks _ _ _ hi

/-! ## The commands of the modes -/

/-- What ECBE and CBCE leave where the padded message fits: the mode's ciphertext as the message (R234, R236). -/
theorem encryptMessage_completes (f : RoundKeys → List Byte → List Byte)
    (hf : ∀ rk m, (f rk m).length = m.length + padCount m.length) {s : State} (hp : s.params.Valid) (hs : s.mbuf.wf)
    (hk : s.kv = true) (hr : s.mlen.toNat + padCount s.mlen.toNat ≤ s.params.mbufSize) :
    ∃ t, encryptMessage f s = .next t ∧ t.mlen.toNat = s.mlen.toNat + padCount s.mlen.toNat ∧
      t.message = f s.rk s.message ∧ t.mbuf.wf ∧
      OnlyMessageChanges 0 (s.mlen.toNat + padCount s.mlen.toNat) s t ∧ t.CompletedWith .ok := by
  have hlen : (f s.rk s.message).length = s.mlen.toNat + padCount s.mlen.toNat := by rw [hf, message_length]
  refine ⟨s.afterMessage 0 (f s.rk s.message) _, encryptMessage_of_ok f hk hr, afterMessage_mlen _ _ (by omega), ?_,
    Memory.wf_setBytes _ _ hs _, ?_, afterMessage_completedWith _ _ _⟩
  · rw [message_afterMessage hs _ (by omega) (by omega), List.take_of_length_le (by omega)]
  · rw [← hlen]
    exact afterMessage_onlyMessageChanges _ _ _ hs

/-- What ECBD and CBCD leave on a message of whole Blocks whose decryption unpads (R235, R237). -/
theorem decryptMessage_completes (f : RoundKeys → List Byte → List Byte)
    (hf : ∀ rk c, (f rk c).length = 16 * (c.length / 16)) {s : State} {m : List Byte} (hs : s.mbuf.wf)
    (hk : s.kv = true) (hl : s.mlen.toNat ≤ s.params.mbufSize) (hb : s.mlen.toNat % 16 = 0)
    (hu : unpad (f s.rk s.message) = some m) :
    ∃ t, decryptMessage f s = .next t ∧ t.mlen.toNat = m.length ∧ t.message = m ∧
      (∀ i, i < s.mlen.toNat / 16 →
        blockOfBytes (t.memRead (16 * i) 16) = blockOfBytes ((f s.rk s.message).drop (16 * i))) ∧
      OnlyMessageChanges 0 s.mlen.toNat s t ∧ t.CompletedWith .ok := by
  have hlen : (f s.rk s.message).length = s.mlen.toNat := by rw [hf, message_length]; omega
  obtain ⟨n, -, -, hbytes⟩ := eq_append_padding_of_unpad hu
  have hfits : m.length ≤ (f s.rk s.message).length := by rw [hbytes, List.length_append]; omega
  have hmlen : m.length < 65536 := by omega
  refine ⟨s.afterMessage 0 (f s.rk s.message) m.length, decryptMessage_of_ok f hl hk hb hu, afterMessage_mlen _ _ hmlen, ?_,
    fun i hi => blockOfBytes_afterMessage hs _ _ (by omega), ?_, afterMessage_completedWith _ _ _⟩
  · rw [message_afterMessage hs _ hmlen hfits, hbytes, List.take_left]
  · rw [← hlen]
    exact afterMessage_onlyMessageChanges _ _ _ hs

/-- Settles O56: the message is the mode's ciphertext, whose Blocks are those of R230 and R232. -/
theorem ecbeAndCbceEncryptTheMessage : Obligations.EcbeAndCbceEncryptTheMessage := by
  intro s hp hs hk L plain hfit
  have hcount : padCount s.mlen.toNat = 16 - s.mlen.toNat % 16 := rfl
  have hpad : (pad s.message).length = L := by rw [pad_length, message_length, hcount]
  constructor
  · obtain ⟨t, ht, hmlen, hm, -, hframe, hdone⟩ := encryptMessage_completes ecbEnc ecbEnc_length hp hs hk hfit
    refine ⟨t, ht, hmlen, fun i hi => ?_, hframe, hdone⟩
    rw [blockOfBytes_message t (by omega), hm]
    exact blockOfBytes_map_blocks (encBlock s.rk) _ (by rwa [hpad])
  · obtain ⟨t, ht, hmlen, hm, -, hframe, hdone⟩ := encryptMessage_completes cbcEnc cbcEnc_length hp hs hk hfit
    refine ⟨t, ht, hmlen, fun i hi => ?_, hframe, hdone⟩
    rw [blockOfBytes_message t (by omega), blockOfBytes_message t (by omega), hm]
    exact blockOfBytes_cbcEnc s.rk _ (by rwa [hpad])

/-- Settles O57: the buffer holds the decrypted bytes, each Block by itself. -/
theorem ecbdDecryptsTheMessage : Obligations.EcbdDecryptsTheMessage := by
  intro s m hs hk hl hb hu
  obtain ⟨t, ht, hmlen, hm, hblocks, hframe, hdone⟩ := decryptMessage_completes ecbDecBytes ecbDecBytes_length hs hk hl hb hu
  refine ⟨t, ht, hmlen, hm, fun i hi => ?_, hframe, hdone⟩
  rw [hblocks i hi, blockOfBytes_message s (by omega)]
  exact blockOfBytes_map_blocks (decBlock s.rk) _ (by rwa [message_length])

/-- Settles O58: as O57, with the chaining value read from the message as it stood before. -/
theorem cbcdDecryptsTheMessage : Obligations.CbcdDecryptsTheMessage := by
  intro s m hs hk hl hb hu
  obtain ⟨t, ht, hmlen, hm, hblocks, hframe, hdone⟩ := decryptMessage_completes cbcDecBytes cbcDecBytes_length hs hk hl hb hu
  refine ⟨t, ht, hmlen, hm, fun i hi => ?_, hframe, hdone⟩
  rw [hblocks i hi, blockOfBytes_message s (by omega), blockOfBytes_message s (by omega)]
  exact blockOfBytes_cbcDecBytes s.rk (by rwa [message_length]) (by rwa [message_length])

/-! ## The round trip on the machine -/

theorem mbufByte_of_message_eq {s t : State} (h : t.message = s.message) {a : Nat} (ha : a < s.mlen.toNat) :
    t.mbufByte a = s.mbufByte a := by
  have hlen : t.mlen.toNat = s.mlen.toNat := by rw [← message_length, h, message_length]
  have hget := congrArg (·.getD a 0) h
  simpa only [State.message, memRead_getD _ _ _ _ ha, memRead_getD _ _ _ _ (hlen ▸ ha), Nat.zero_add] using hget

/-- A decryption that undoes an encryption on byte sequences undoes it on the machine. -/
theorem decryptMessage_encryptMessage {f g : RoundKeys → List Byte → List Byte}
    (hf : ∀ rk m, (f rk m).length = m.length + padCount m.length) (hg : ∀ rk c, (g rk c).length = 16 * (c.length / 16))
    (hgf : ∀ rk m, g rk (f rk m) = pad m) {s : State} (hs : s.Inv) (hk : s.kv = true)
    (hr : s.mlen.toNat + padCount s.mlen.toNat ≤ s.params.mbufSize) :
    ∃ t u, encryptMessage f s = .next t ∧ decryptMessage g t = .next u ∧ u.errcode = .ok ∧ u.mlen = s.mlen ∧
      ∀ a, a < s.mlen.toNat → u.mbufByte a = s.mbufByte a := by
  obtain ⟨hp, ⟨hwf, -⟩, -⟩ := hs
  obtain ⟨t, ht, hmlen, hm, hwf', ⟨⟨-, -, hparams, -⟩, -, hrk, hkv, -⟩, -⟩ := encryptMessage_completes f hf hp hwf hk hr
  have hunpad : unpad (g t.rk t.message) = some s.message := by rw [hm, hrk, hgf, unpad_pad]
  obtain ⟨u, hu, hulen, hum, -, -, hok, -⟩ := decryptMessage_completes g hg hwf' (hkv.trans hk) (by rwa [hmlen, hparams])
    (by rw [hmlen, padded_mod]) hunpad
  exact ⟨t, u, ht, hu, hok, BitVec.eq_of_toNat_eq (hulen.trans (message_length s)), fun _ => mbufByte_of_message_eq hum⟩

/-- Settles O42: both modes' decryptions undo their encryptions up to the padding, which `unpad` takes off. -/
theorem encryptThenDecryptRestoresTheMessage : Obligations.EncryptThenDecryptRestoresTheMessage := fun _ hs hk hr =>
  ⟨decryptMessage_encryptMessage ecbEnc_length ecbDecBytes_length ecbDecBytes_ecbEnc hs hk hr,
    decryptMessage_encryptMessage cbcEnc_length cbcDecBytes_length cbcDecBytes_cbcEnc hs hk hr⟩

end Sys2Proof.Machine
end

section
/-! PROOFS. The two resets, and the registers as the host reads and writes them, idle and busy (spec/10_state.md R26 to R38;
spec/20_memory.md R67 to R72; spec/70_reset_and_hazards.md R340, R341). -/

namespace Sys2Proof.Machine

/-! ## Reset -/

theorem resetRegisters_registersAtReset (s : State) : RegistersAtReset s.resetRegisters :=
  ⟨rfl, fun r => Vector.getElem_replicate r.isLt, rfl, rfl, rfl, rfl, rfl, rfl, rfl, rfl, rfl, rfl⟩

/-- Settles O21: no byte is listed at reset, so each reads as its draw. -/
theorem resetStateHoldsTheResetValues : Obligations.ResetStateHoldsTheResetValues :=
  ⟨resetRegisters_registersAtReset State.reset, rfl, fun _ => rfl⟩

/-- Settles O22: the reset leaves the core idle, so the first `CMD` write is accepted. -/
theorem powerOnResetGivesTheResetValues : Obligations.PowerOnResetGivesTheResetValues := by
  intro s rest hin
  refine ⟨_, step_powerOn hin, resetRegisters_registersAtReset s, rfl, fun _ => rfl, rfl, fun a w ha => ?_⟩
  rw [hostWrite_cmd w rfl ha]
  rfl

theorem softReset_of_message {s : State} (h : s.messagePending = true) : s.softReset = s.resetRegisters.drawMbuf := if_pos h

theorem softReset_of_no_message {s : State} (h : s.messagePending = false) : s.softReset = s.resetRegisters :=
  if_neg (Bool.eq_false_iff.mp h)

theorem softReset_registersAtReset (s : State) : RegistersAtReset s.softReset := by
  cases h : s.messagePending with
  | true => rw [softReset_of_message h]; exact resetRegisters_registersAtReset s
  | false => rw [softReset_of_no_message h]; exact resetRegisters_registersAtReset s

theorem messagePending_of_command {s : State} {w : Word} {i : Instr} (hp : s.pend = some w) (hw : decode w = .ok i) :
    s.messagePending = isMessageCommand i := by
  simp only [State.messagePending, hp, hw]

theorem messagePending_of_illegal {s : State} {w : Word} {e : Illegal} (hp : s.pend = some w)
    (hw : decode w = .error e) : s.messagePending = false := by
  simp only [State.messagePending, hp, hw]

theorem messagePending_of_idle {s : State} (hp : s.pend = none) : s.messagePending = false := by
  simp only [State.messagePending, hp]

/-- Settles O23: by whether a message command is abandoned. -/
theorem softResetGivesTheResetValues : Obligations.SoftResetGivesTheResetValues := by
  intro s a d ha hd
  rw [hostWrite_ctrl d ha, writeCtrl_of_srst s hd]
  refine ⟨softReset_registersAtReset s, fun w i hp hw hi b => ?_, fun hother => ?_⟩
  · rw [softReset_of_message ((messagePending_of_command hp hw).trans hi)]
    rfl
  · have hno : s.messagePending = false := by
      rcases hother with hp | ⟨w, hp, hall⟩
      · exact messagePending_of_idle hp
      · cases hw : decode w with
        | ok i => exact (messagePending_of_command hp hw).trans (hall i hw)
        | error e => exact messagePending_of_illegal hp hw
    rw [softReset_of_no_message hno]
    exact fun _ => rfl

/-! ## `STATUS` -/

/-- Settles O27: a read records the word, and counts it if it is a draw. -/
theorem readsHaveNoSideEffect : Obligations.ReadsHaveNoSideEffect := fun s a => hostRead_eq a s

theorem statusWord_flags (s : State) :
    (statusWord s).getLsbD 0 = s.busy ∧ (statusWord s).getLsbD 1 = s.done ∧ (statusWord s).getLsbD 2 = s.kv ∧
      (statusWord s).getLsbD 3 = s.ovr := by
  simp only [statusWord, BitVec.getLsbD_append]
  simp

theorem statusWord_errcode (s : State) : (statusWord s).extractLsb' 8 4 = errNumber s.errcode := by
  ext i hi
  simp only [statusWord, BitVec.getElem_extractLsb', BitVec.getLsbD_append]
  interval_cases i <;> simp

theorem statusWord_reserved (s : State) :
    (statusWord s).extractLsb' 4 4 = 0 ∧ (statusWord s).extractLsb' 12 20 = 0 := by
  constructor
  all_goals
    ext i hi
    simp only [statusWord, BitVec.getElem_extractLsb', BitVec.getLsbD_append]
    interval_cases i <;> simp

theorem and_not_eq_ite (b c : Bool) : (b && !c) = if c = true then false else b := by
  cases c <;> simp

theorem writeStatus_eq (d : Word) (s : State) :
    writeStatus d s =
      { s with
        done := if d.getLsbD 1 = true then false else s.done
        ovr := if d.getLsbD 3 = true then false else s.ovr } := by
  rw [writeStatus, and_not_eq_ite, and_not_eq_ite]

/-- Settles O28: the fields of the word as it is put together, and a write keeps each flag whose bit it does not set. -/
theorem statusRegisterReadsAndWrites : Obligations.StatusRegisterReadsAndWrites := by
  intro s a d ha
  have hread : hostRead a s = { s with lastRead := some (statusWord s) } :=
    hostRead_of_value .status (target_status ha) (.inr rfl)
  obtain ⟨hbusy, hdone, hkv, hovr⟩ := statusWord_flags s
  obtain ⟨hlow, hhigh⟩ := statusWord_reserved s
  have hcode := statusWord_errcode s
  rw [hread, hostWrite_status d ha]
  refine ⟨⟨_, rfl, hbusy, hdone, hkv, hovr, hlow, hhigh, ?_, ?_, ?_, ?_, ?_, ?_⟩, writeStatus_eq d s⟩
  all_goals exact fun h => hcode.trans (congrArg errNumber h)

/-! ## The other registers, idle and busy -/

/-- Settles O29: by what the address names. -/
theorem busyWritesAreDroppedAndRecorded : Obligations.BusyWritesAreDroppedAndRecorded := by
  intro s a d hb
  refine ⟨fun ha => hostWrite_of_frozen d hb (target_frozen ha), fun ⟨hlo, hhi⟩ => hostWrite_inert d hlo hhi,
    fun ha => hostWrite_ctrl d ha, fun ha => ?_⟩
  rw [hostWrite_status d ha]
  exact ⟨rfl, rfl⟩

/-- Settles O30: the targets of R72 have a draw mask, whose 1 bits are those that are not reserved. -/
theorem busyReadsReturnDraws : Obligations.BusyReadsReturnDraws := by
  intro s a hb draw
  refine ⟨fun ha => ?_, fun ha => ?_, fun ha => ?_, fun ha => ?_, fun ha => ?_, fun ha => ?_⟩
  · have hmask : draw &&& 0xFFFFFFFF = draw := BitVec.and_allOnes
    rw [← hmask]
    rcases ha with ⟨hlo, hhi⟩ | hwin
    · exact hostRead_of_draw _ _ (target_blk (k := ⟨a.toNat / 4 - 8, by omega⟩) (by dsimp only; omega)) hb rfl
    · exact hostRead_of_draw _ _ (target_window (k := a.toNat / 4 - 0x4000) (by omega)) hb rfl
  · rw [hostRead_of_draw .mlen _ (target_mlen ha) hb rfl]
    exact ⟨_, rfl, Nat.and_two_pow_sub_one_eq_mod draw.toNat 16⟩
  · rw [hostRead_of_draw .gfr _ (target_gfr ha) hb rfl]
    exact ⟨_, rfl, Nat.and_two_pow_sub_one_eq_mod draw.toNat 8⟩
  · rw [hostRead_of_value .ctrl (target_ctrl ha) (.inr rfl), readValue, ctrlWord_eq]
  · exact hostRead_of_value .status (target_status ha) (.inr rfl)
  · rcases ha with hcmd | ⟨hlo, hhi⟩ | ⟨hlo, hhi⟩
    · exact hostRead_cmd hcmd
    · exact hostRead_key ⟨a.toNat / 4 - 4, by omega⟩ (by dsimp only; omega)
    · obtain ⟨hread, -⟩ := reservedAndUnmappedWordsAreInert s a 0 (by omega) (by omega)
      exact hread

/-- Settles O34: `MLEN` takes the low half of a word, and `GFR` none of it. -/
theorem lengthAndProductWords : Obligations.LengthAndProductWords := by
  intro s a d hb
  refine ⟨fun ha => ?_, fun ha => ⟨hostWrite_gfr d hb ha, ?_⟩⟩
  · rw [hostWrite_mlen d hb ha, hostRead_of_value .mlen (target_mlen ha) (.inl hb)]
    exact ⟨rfl, BitVec.toNat_setWidth 16 d, _, rfl, BitVec.toNat_setWidth_of_le (by decide)⟩
  · rw [hostRead_of_value .gfr (target_gfr ha) (.inl hb)]
    exact ⟨_, rfl, BitVec.toNat_setWidth_of_le (by decide)⟩

end Sys2Proof.Machine
end

section
/-! PROOFS. NOP, MIXCOL, IMIXCOL, ARK and GFMUL, and the document's known vector (spec/41_block_transforms.md R131 to R153;
spec/45_control_commands.md R263; spec/95_test_vectors.md KV-1). -/

namespace Sys2Proof.Machine

/-- Settles O44: NOP is a completion alone. -/
theorem nopWritesNothing : Obligations.NopWritesNothing := fun s =>
  ⟨s.complete .ok, rfl, ⟨rfl, rfl, rfl, rfl, rfl, ⟨rfl, rfl⟩, rfl⟩, ⟨rfl, rfl, rfl, rfl, rfl, rfl, rfl⟩,
    complete_completedWith s .ok⟩

/-! ## MixColumns by its matrices -/

theorem mixCol_eq (a : Col) :
    matrixTimesCol mixRow a =
      ⟨gmul 2 a.b0 ^^^ gmul 3 a.b1 ^^^ a.b2 ^^^ a.b3, a.b0 ^^^ gmul 2 a.b1 ^^^ gmul 3 a.b2 ^^^ a.b3,
        a.b0 ^^^ a.b1 ^^^ gmul 2 a.b2 ^^^ gmul 3 a.b3, gmul 3 a.b0 ^^^ a.b1 ^^^ a.b2 ^^^ gmul 2 a.b3⟩ := by
  simp only [matrixTimesCol, rowTimesCol, mixRow, one_gmul]

/-- Settles O48: a column is mapped by the matrix, in which 1 multiplies as nothing. -/
theorem mixcolAndImixcolMultiplyEveryColumn : Obligations.MixcolAndImixcolMultiplyEveryColumn := by
  intro s
  constructor
  · obtain ⟨t, ht, hblk, hframe, hdone⟩ := transformBlk_completes mixColumns s
    refine ⟨t, ht, fun c a0 a1 a2 a3 hc => ?_, hframe, hdone⟩
    rw [hblk, mixColumns, blockCol_blockMapCols, hc, mixCol_eq]
  · obtain ⟨t, ht, hblk, hframe, hdone⟩ := transformBlk_completes invMixColumns s
    refine ⟨t, ht, fun c a0 a1 a2 a3 hc => ?_, hframe, hdone⟩
    rw [hblk, invMixColumns, blockCol_blockMapCols, hc]
    rfl

/-! ## AddRoundKey byte by byte -/

theorem blockByte_xor16 (a b : Block) (i : Fin 16) : blockByte (xor16 a b) i = blockByte a i ^^^ blockByte b i := by
  fin_cases i <;> rfl

/-- Settles O50: ARK is the format R command of AddRoundKey. -/
theorem arkAddsTheRoundKey : Obligations.ArkAddsTheRoundKey := by
  intro s r h hk
  obtain ⟨t, ht, hblk, hframe, hdone⟩ := transformBlkRound_completes (fun k rk b => addRoundKey b rk[k]) h hk
  refine ⟨t, ht, fun i => ?_, hframe, hdone⟩
  rw [hblk, addRoundKey, blockByte_xor16]
  rfl

/-! ## The product as a sum of doublings -/

/-- The loop of R133 adds, for each bit of the right factor that it still meets, the left factor doubled as often. -/
theorem gmulLoop_eq_foldl (n : Nat) (a b p : Byte) :
    gmulLoop n a b p =
      (List.range n).foldl (fun p k => if b.getLsbD k = true then p ^^^ xtime^[k] a else p) p := by
  induction n generalizing a b p with
  | zero => rfl
  | succ n ih =>
    rw [gmulLoop, ih, List.range_succ_eq_map, List.foldl_cons, List.foldl_map]
    simp only [BitVec.getLsbD_ushiftRight, Nat.add_comm 1, Function.iterate_succ_apply, Function.iterate_zero_apply,
      Nat.succ_eq_add_one]

theorem complete_onlyGfrChanges (s : State) (g : Byte) : OnlyGfrChanges s ({ s with gfr := g }.complete .ok) :=
  ⟨⟨rfl, rfl, rfl, rfl, rfl, rfl, rfl⟩, rfl, rfl, rfl, rfl, rfl, fun _ => rfl⟩

/-- Settles O49: `GFR` takes the loop's product. -/
theorem gfmulLeavesTheProduct : Obligations.GfmulLeavesTheProduct := fun s a b =>
  ⟨{ s with gfr := gmul a b }.complete .ok, rfl, gmulLoop_eq_foldl 8 a b 0, complete_onlyGfrChanges s _,
    complete_completedWith _ _⟩

/-! ## The known vector -/

/-- A Block is known by its bytes. -/
theorem eq_blockOfBytes {b : Block} {m : List Byte} (h : blockBytesOf b = m) : b = blockOfBytes m := by
  rw [← h]
  rfl

/-- The cipher on KV-1. -/
theorem encBlock_knownVector :
    blockBytesOf (encBlock
        (expand (blockOfBytes
          [0x54, 0x68, 0x61, 0x74, 0x73, 0x20, 0x6D, 0x79, 0x20, 0x4B, 0x75, 0x6E, 0x67, 0x20, 0x46, 0x75]))
        (blockOfBytes
          [0x54, 0x77, 0x6F, 0x20, 0x4F, 0x6E, 0x65, 0x20, 0x4E, 0x69, 0x6E, 0x65, 0x20, 0x54, 0x77, 0x6F])) =
      [0x29, 0xC3, 0x50, 0x5F, 0x57, 0x14, 0x20, 0xF6, 0x40, 0x22, 0x99, 0xB3, 0x1A, 0x02, 0xD7, 0x3A] := by
  decide +kernel

theorem exec_encb {s : State} (h : s.kv = true) :
    exec .encb s = .next ({ s with blk := encBlock s.rk s.blk }.complete .ok) := transformBlkKeyed_of_valid encBlock h

theorem exec_decb {s : State} (h : s.kv = true) :
    exec .decb s = .next ({ s with blk := decBlock s.rk s.blk }.complete .ok) := transformBlkKeyed_of_valid decBlock h

/-- Settles O43: KEYEXP and ENCB evaluate the cipher on the vector, and DECB undoes ENCB whatever the Block. -/
theorem knownVectorHolds : Obligations.KnownVectorHolds := by
  intro s hkey hblk
  refine ⟨_, _, _, exec_keyexp s, exec_encb (by rfl), exec_decb (by rfl), ?_, ?_⟩
  · show blockBytesOf (encBlock (expand s.key) s.blk) = _
    rw [eq_blockOfBytes hkey, eq_blockOfBytes hblk]
    exact encBlock_knownVector
  · exact decBlock_encBlock (expand s.key) s.blk

end Sys2Proof.Machine
end
